-- ==== Sys2Proof/Word.lean ====
section
/-! DEFINITION. The word types of the block: the 32-bit host port word, the 19-bit byte offset, the
binary32 sample and the 64-bit listing and frame words (00_scope.md R7, R8, R9). -/

namespace Sys2Proof

/-- One byte of a word that a port serialises (20_memory.md R62). -/
abbrev Byte := BitVec 8

/-- A host port word, `DATA_W` = 32 bits (00_scope.md R7). -/
abbrev Word := BitVec 32

/-- A binary32 bit pattern: a sample or a table entry (00_scope.md R7, R9). -/
abbrev Sample := BitVec 32

/-- A byte offset of the host register port, `OFFSET_W` = 19 bits (00_scope.md R7). -/
abbrev Offset := BitVec 19

/-- A 64-bit unit: a BUS listing word, a FRAME word or a binary64 pattern (30_encoding.md R80). -/
abbrev DWord := BitVec 64

end Sys2Proof
end

