-- ==== Sys2Proof/Config.lean ====
section
/-! DEFINITION. What an implementation fixes (00_scope.md R7) and the free values the spec leaves
open. The numeric parameters are plain data (`Params`) that State carries and no step writes, so a
statement about every state is one about every legal parameter; the free values are opaque constants. -/

namespace Sys2Proof

/-- Which SINE_ROM the block holds (40_table_builder.md R104 to R106): the default `SINE_REF`, or
any other function with properties P0 to P3 (log entry 7). -/
inductive SineRom where
  | reference
  | free
deriving DecidableEq, Repr

/-- The OPEN parameters of 00_scope.md R7 that are plain data. -/
structure Params where
  /-- `LUT_DEPTH_MAX`: entries the hardware holds, 1 to 65536. -/
  lutDepthMax : Nat
  /-- `FPB_MAX`: the largest legal frames per buffer, 1 to 2^32 - 1. -/
  fpbMax : Nat
  /-- `SINE_ROM`: the function that BUILD fills the table from. -/
  sineRom : SineRom
deriving DecidableEq, Repr

/-- The defaults of 00_scope.md R7. -/
def Params.default : Params := ⟨65536, 4096, .reference⟩

/-- The ranges 00_scope.md R7 gives the parameters. -/
abbrev Params.Legal (p : Params) : Prop :=
  (1 ≤ p.lutDepthMax ∧ p.lutDepthMax ≤ 65536) ∧ (1 ≤ p.fpbMax ∧ p.fpbMax < 2 ^ 32)

/-- FREE VALUE `NAN_DRAW` (41_modulation_engine.md R122): the sign and the 22 payload bits below the
quiet bit of the k-th NaN the block draws (log entry 5). -/
opaque Config.nanDraw : Nat → BitVec 23

/-- FREE VALUE `SINE_ROM` (40_table_builder.md R105): the raw entry of (L, i) of an implementation that
does not hold SINE_REF; `sineFree` keeps it to P0 to P3 (log entry 7). -/
opaque Config.sineRom : Nat → Nat → Sample

/-- FREE VALUE (10_state.md R41, R46): LUT entry i as the k-th reset leaves it, until a BUILD writes it
(log entry 6). -/
opaque Config.lutUnspecified : Nat → Nat → Sample

/-- `BLOCK_BASE` (00_scope.md R7, OPEN): the platform's address of offset 0 (log entry 8). -/
opaque Config.blockBase : Nat

end Sys2Proof
end

