-- ==== Sys2Proof/Syntax.lean ====
section
/-! DEFINITION. The instructions of the block: one constructor per row of spec/opcode_table.json, and
the encoded units that carry them (30_encoding.md R80). -/

namespace Sys2Proof

/-- One stereo frame: two binary32 samples (30_encoding.md R84). -/
structure Frame where
  left : Sample
  right : Sample
deriving DecidableEq, Repr

/-- Field DIR of a BUS access (30_encoding.md R83). -/
inductive Direction where
  | read
  | write
deriving DecidableEq, Repr

/-- The four access sizes field SIZE spells, 1, 2, 4 and 8 bytes (30_encoding.md R83). -/
inductive AccessSize where
  | one
  | two
  | four
  | eight
deriving DecidableEq, Repr

/-- The instruction set: the ten rows of spec/opcode_table.json. -/
inductive Instr where
  /-- NOP, command word 0x00000000 (42_control.md R141). -/
  | nop
  /-- BUILD, command word 0x00000001 (40_table_builder.md R101). -/
  | build
  /-- START, command word 0x00000002 (42_control.md R142). -/
  | start
  /-- STOP, command word 0x00000003 (42_control.md R143). -/
  | stop
  /-- ILLEGAL_CMD, any other command word {RSV, OP} (42_control.md R144). -/
  | illegalCmd (rsv : BitVec 28) (op : BitVec 4)
  /-- RD, an aligned 4-byte host read (42_control.md R145). -/
  | rd (off : Offset)
  /-- WR, an aligned 4-byte host write (42_control.md R146). -/
  | wr (off : Offset) (data : Word)
  /-- ACCESS_ERROR, a host access of another size or alignment (60_exceptions.md R168). -/
  | accessError (dir : Direction) (size : AccessSize) (off : Offset) (data : Word)
  /-- FRAME, one stereo frame inside a BUFFER (41_modulation_engine.md R121). -/
  | frame (left right : Sample)
  /-- BUFFER, one whole buffer of frames, frame 0 first (41_modulation_engine.md R124). -/
  | buffer (frames : List Frame)
deriving DecidableEq, Repr

/-- The four formats of 30_encoding.md R80. -/
inductive Format where
  | cmd
  | bus
  | frame
  | buffer
deriving DecidableEq, Repr

/-- An encoded unit (30_encoding.md R80): a command word as a host write to CMD carries it, a BUS
listing word of the host port, a FRAME word, or the FRAME words of a BUFFER on the stream port. -/
inductive Encoded where
  | cmd (w : Word)
  | bus (w : DWord)
  | frame (w : DWord)
  | buffer (ws : List DWord)
deriving DecidableEq, Repr

/-- The format of an encoded unit. -/
def Encoded.format : Encoded → Format
  | .cmd _ => .cmd
  | .bus _ => .bus
  | .frame _ => .frame
  | .buffer _ => .buffer

/-- The format column of spec/opcode_table.json. -/
def Instr.format : Instr → Format
  | .nop => .cmd
  | .build => .cmd
  | .start => .cmd
  | .stop => .cmd
  | .illegalCmd _ _ => .cmd
  | .rd _ => .bus
  | .wr _ _ => .bus
  | .accessError _ _ _ _ => .bus
  | .frame _ _ => .frame
  | .buffer _ => .buffer

end Sys2Proof
end

