-- ==== Sys2Proof/WellFormed.lean ====
section
/-! DEFINITION. Which terms of `Instr` the encodings of 30_encoding.md spell. -/

namespace Sys2Proof

/-- The offset is a multiple of 4 (20_memory.md R64). -/
def Offset.aligned (off : Offset) : Bool := off.extractLsb' 0 2 == 0#2

/-- A host access that is performed: 4 bytes at a multiple of 4 (20_memory.md R64). -/
def accessLegal (size : AccessSize) (off : Offset) : Bool := size == .four && Offset.aligned off

/-- The fields of a command word spell no command: RSV is not 0, or OP is 0x4 to 0xF
(30_encoding.md R81, R89). -/
def commandReserved (rsv : BitVec 28) (op : BitVec 4) : Bool := rsv != 0#28 || 4#4 ≤ op

/-- Well-formed instructions: the terms that some encoded unit spells. An illegal command is none of
the four commands; RD and WR are aligned; an access error is one, and a read carries no data
(30_encoding.md R83); a buffer has `FPB_ACTIVE` frames, so at least 1 and fewer than 2^32 (R85). -/
def Instr.wf : Instr → Bool
  | .nop => true
  | .build => true
  | .start => true
  | .stop => true
  | .illegalCmd rsv op => commandReserved rsv op
  | .rd off => Offset.aligned off
  | .wr off _ => Offset.aligned off
  | .accessError dir size off data => !accessLegal size off && (dir == .write || data == 0#32)
  | .frame _ _ => true
  | .buffer frames => decide (1 ≤ frames.length) && decide (frames.length < 2 ^ 32)

end Sys2Proof
end

