-- ==== Sys2Proof/Decode.lean ====
section
/-! DEFINITION. The decoder, total on every encoded unit and on every list of bytes, rejecting by name,
and after it the encoder (30_encoding.md R80 to R89). -/

namespace Sys2Proof

/-- `{hi, lo}`: concatenation, `hi` in the high bits, as a value of width `w` (00_scope.md R8). -/
def cat (w : Nat) {n m : Nat} (hi : BitVec n) (lo : BitVec m) : BitVec w := (hi ++ lo).setWidth w

/-- Why a unit is no instruction. -/
inductive DecodeError where
  /-- A BUS word with RSVB not 0 or SIZE 4 to 7 "spells no access" (30_encoding.md R83). -/
  | spellsNoAccess
  /-- A buffer of no frames: FPB_ACTIVE is at least 1 in a run (42_control.md R142). -/
  | emptyBuffer
  /-- A buffer of 2^32 frames or more: FPB_ACTIVE has 32 bits (10_state.md R20). -/
  | bufferTooLong
  /-- The bytes are not a whole unit of the format's width (30_encoding.md R80). -/
  | wrongWidth
deriving DecidableEq, Repr

/-- Field SIZE (30_encoding.md R83): 0, 1, 2, 3 spell 1, 2, 4, 8 bytes, 4 to 7 none. -/
def AccessSize.ofCode (c : BitVec 3) : Option AccessSize :=
  if c = 0#3 then some .one
  else if c = 1#3 then some .two
  else if c = 2#3 then some .four
  else if c = 3#3 then some .eight
  else none

/-- CMD format (30_encoding.md R81, R82): OP in bits 3:0, RSV in bits 31:4. -/
def decodeCommand (w : Word) : Instr :=
  let op := w.extractLsb' 0 4
  let rsv := w.extractLsb' 4 28
  if commandReserved rsv op then .illegalCmd rsv op
  else if op = 0#4 then .nop
  else if op = 1#4 then .build
  else if op = 2#4 then .start
  else .stop

/-- A BUS access of size `size` (30_encoding.md R83, R89): RD or WR when it is legal, ACCESS_ERROR when
it is not. A read ignores WDATA. -/
def decodeAccess (dir : Direction) (size : AccessSize) (off : Offset) (data : Word) : Instr :=
  match dir with
  | .read => if accessLegal size off then .rd off else .accessError .read size off 0#32
  | .write => if accessLegal size off then .wr off data else .accessError .write size off data

/-- BUS format (30_encoding.md R83): WDATA 31:0, OFFSET 50:32, SIZE 53:51, RSVB 62:54, DIR 63. -/
def decodeBus (w : DWord) : Except DecodeError Instr :=
  if w.extractLsb' 54 9 ≠ 0#9 then .error .spellsNoAccess
  else
    match AccessSize.ofCode (w.extractLsb' 51 3) with
    | none => .error .spellsNoAccess
    | some size =>
      .ok (decodeAccess (if w.getLsbD 63 then .write else .read) size (w.extractLsb' 32 19)
        (w.extractLsb' 0 32))

/-- FRAME format (30_encoding.md R84): LEFT 31:0, RIGHT 63:32. -/
def Frame.ofBits (w : DWord) : Frame := ⟨w.extractLsb' 0 32, w.extractLsb' 32 32⟩

/-- BUFFER format (30_encoding.md R85): the FRAME words, frame 0 first. -/
def decodeBuffer (ws : List DWord) : Except DecodeError Instr :=
  if ws.length = 0 then .error .emptyBuffer
  else if 2 ^ 32 ≤ ws.length then .error .bufferTooLong
  else .ok (.buffer (ws.map Frame.ofBits))

/-- The decoder: the port a unit arrives on tells its format (30_encoding.md R89). -/
def decode : Encoded → Except DecodeError Instr
  | .cmd w => .ok (decodeCommand w)
  | .bus w => decodeBus w
  | .frame w => .ok (.frame (Frame.ofBits w).left (Frame.ofBits w).right)
  | .buffer ws => decodeBuffer ws

/-! Bytes of a serialised unit. -/

/-- The number that bytes spell, the first byte least significant: the order of 20_memory.md R62, R63, and
DESIGN CHOICE for a BUS listing word (log entry 20). -/
def natOfBytes : List Byte → Nat
  | [] => 0
  | b :: bs => b.toNat + 256 * natOfBytes bs

/-- `n` bytes of a number, the least significant first, as `natOfBytes` reads them. -/
def bytesOfNat : Nat → Nat → List Byte
  | 0, _ => []
  | n + 1, v => BitVec.ofNat 8 v :: bytesOfNat n (v / 256)

/-- The 64-bit words of a byte list, cut into `n` groups of eight. -/
def dwordsOfBytes : Nat → List Byte → List DWord
  | 0, _ => []
  | n + 1, bs => BitVec.ofNat 64 (natOfBytes (bs.take 8)) :: dwordsOfBytes n (bs.drop 8)

/-- The unit of a format that a byte list spells, or its rejection when the width is not the format's
(30_encoding.md R80). -/
def unitOfBytes (f : Format) (bs : List Byte) : Except DecodeError Encoded :=
  match f with
  | .cmd => if bs.length = 4 then .ok (.cmd (BitVec.ofNat 32 (natOfBytes bs))) else .error .wrongWidth
  | .bus => if bs.length = 8 then .ok (.bus (BitVec.ofNat 64 (natOfBytes bs))) else .error .wrongWidth
  | .frame => if bs.length = 8 then .ok (.frame (BitVec.ofNat 64 (natOfBytes bs))) else .error .wrongWidth
  | .buffer =>
    if bs.length % 8 = 0 then .ok (.buffer (dwordsOfBytes (bs.length / 8) bs)) else .error .wrongWidth

/-- The decoder on the bytes of a serialised unit. -/
def decodeBytes (f : Format) (bs : List Byte) : Except DecodeError Instr :=
  match unitOfBytes f bs with
  | .error e => .error e
  | .ok u => decode u

/-! The encoder. -/

/-- The code of an access size (30_encoding.md R83). -/
def AccessSize.code : AccessSize → BitVec 3
  | .one => 0#3
  | .two => 1#3
  | .four => 2#3
  | .eight => 3#3

/-- The code of a direction (30_encoding.md R83). -/
def Direction.code : Direction → BitVec 1
  | .read => 0#1
  | .write => 1#1

/-- A command word {RSV, OP} (30_encoding.md R81). -/
def commandWord (rsv : BitVec 28) (op : BitVec 4) : Word := cat 32 rsv op

/-- A BUS word {DIR, RSVB = 0, SIZE, OFFSET, WDATA} (30_encoding.md R83, R91). -/
def busWord (dir : Direction) (size : AccessSize) (off : Offset) (data : Word) : DWord :=
  cat 64 dir.code (cat 63 0#9 (cat 54 size.code (cat 51 off data)))

/-- A FRAME word {RIGHT, LEFT} (30_encoding.md R84). -/
def Frame.bits (f : Frame) : DWord := cat 64 f.right f.left

/-- The encoder, from the formats of 30_encoding.md R81 to R85. -/
def encode : Instr → Encoded
  | .nop => .cmd (commandWord 0#28 0#4)
  | .build => .cmd (commandWord 0#28 1#4)
  | .start => .cmd (commandWord 0#28 2#4)
  | .stop => .cmd (commandWord 0#28 3#4)
  | .illegalCmd rsv op => .cmd (commandWord rsv op)
  | .rd off => .bus (busWord .read .four off 0#32)
  | .wr off data => .bus (busWord .write .four off data)
  | .accessError dir size off data => .bus (busWord dir size off data)
  | .frame left right => .frame (Frame.bits ⟨left, right⟩)
  | .buffer frames => .buffer (frames.map Frame.bits)

/-- The bytes of a serialised unit, little-endian: a command word by 20_memory.md R62, frames in order by R63.
DESIGN CHOICE: the spec gives a BUS listing word no bytes, and its eight are little-endian too (log entry 20). -/
def Encoded.bytes : Encoded → List Byte
  | .cmd w => bytesOfNat 4 w.toNat
  | .bus w => bytesOfNat 8 w.toNat
  | .frame w => bytesOfNat 8 w.toNat
  | .buffer ws => ws.flatMap fun w => bytesOfNat 8 w.toNat

/-! The host's question about one word. -/

/-- The BUFFER of `n` FRAME words that a number spells, first frame in the low bits. -/
def dwordsOfNat : Nat → Nat → List DWord
  | 0, _ => []
  | n + 1, w => BitVec.ofNat 64 w :: dwordsOfNat n (w / 2 ^ 64)

/-- The unit a word of `nbits` bits is, when no port is named (log entry 12): up to 32 bits a command
word; up to 64 a BUS word, or where that spells no access a FRAME word; more, a BUFFER. -/
def tableUnit (nbits w : Nat) : Encoded :=
  if nbits ≤ 32 then .cmd (BitVec.ofNat 32 w)
  else if nbits ≤ 64 then
    match decodeBus (BitVec.ofNat 64 w) with
    | .ok _ => .bus (BitVec.ofNat 64 w)
    | .error _ => .frame (BitVec.ofNat 64 w)
  else .buffer (dwordsOfNat ((nbits + 63) / 64) w)

/-- The instruction the decoder reads from a word numbered as spec/opcode_table.json numbers it: the
unit is laid out as bytes, and the bytes are decoded. -/
def decodeTableWord (nbits w : Nat) : Option Instr :=
  match decodeBytes (tableUnit nbits w).format (tableUnit nbits w).bytes with
  | .ok i => some i
  | .error _ => none

end Sys2Proof
end

