-- ==== Sys2Proof/Machine/State.lean ====
section
/-! DEFINITION. The state of the block: every element of 10_state.md R20, the port outputs a step hands
to its agent, the agents' steps still to come (20_memory.md R60, R61), and the model's own fields. -/

namespace Sys2Proof.Machine

/-- The result codes of STATUS.ERR (60_exceptions.md R161); 8 to 15 are never produced. -/
inductive ErrCode where
  | ok
  | invalidFrequency
  | tableOverflow
  | busy
  | noTable
  | badFpb
  | illegalCommand
  | cfgLocked
deriving DecidableEq, Repr

/-- The four configuration registers (42_control.md R147). -/
inductive ConfigReg where
  | sampleRate
  | freqLo
  | freqHi
  | fpb
deriving DecidableEq, Repr

/-- The LUT storage: the entries a BUILD has written since the reset, entry i at position i. A BUILD
writes entries 0 to L-1, so what is written is always the first entries; equal contents are equal lists.
An entry past the list is unspecified (10_state.md R41, R46; log entry 6). -/
abbrev Memory := List Sample

/-- One step of an agent that has yet to happen (20_memory.md R60, R61): a host access as its BUS listing
word, a buffer the stream source delivers as its FRAME words, or a reset. -/
inductive Arrival where
  | host (access : DWord)
  | stream (frames : List DWord)
  | reset
deriving DecidableEq, Repr

/-- Model faults. -/
inductive Fault where
  /-- Raised by RD, WR and ACCESS_ERROR: a host access that is not 4 bytes at a multiple of 4, with its
  offset (60_exceptions.md R168: "A model treats AccessError as a fault of the HOST agent's step").
  Safe: the hardware answers with an error and changes no state. -/
  | accessError (off : Offset)
  /-- Raised by FRAME, and by BUFFER through it, when a phase is at or above LENGTH
  (41_modulation_engine.md R121, 60_exceptions.md R167). Safe: no reachable state meets it (R127). -/
  | realTimeFault
deriving DecidableEq, Repr

/-- Reasons for which a step has no meaning. -/
inductive Refusal where
  /-- Raised by `exec` for an instruction with no meaning yet; no arm is. Safe. -/
  | notModelled (mnemonic : String)
  /-- Raised by BUFFER when its guard does not hold: "otherwise the STREAM agent has no step"
  (41_modulation_engine.md R124). Safe towards the block's own steps; log entry 4 says what it assumes. -/
  | bufferNotAdmitted
  /-- Raised by the step for a unit that the decoder rejects (30_encoding.md R83, R85). Safe: it spells no
  access and no buffer. -/
  | undecodable (why : DecodeError)
deriving DecidableEq, Repr

/-- The state of the block. -/
structure State where
  /-- RUNNING (10_state.md R27). -/
  running : Bool
  /-- TABLE_VALID (10_state.md R28). -/
  tableValid : Bool
  /-- ERR (10_state.md R29). -/
  err : BitVec 4
  /-- SAMPLE_RATE (10_state.md R33). -/
  sampleRate : Word
  /-- FREQ, the binary64 {FREQ_HI, FREQ_LO} (10_state.md R34). -/
  freq : DWord
  /-- FPB (10_state.md R35). -/
  fpb : Word
  /-- FPB_ACTIVE (10_state.md R38). -/
  fpbActive : Word
  /-- LENGTH (10_state.md R36). -/
  length : Word
  /-- PHASE_L (10_state.md R22). -/
  phaseL : Word
  /-- PHASE_R (10_state.md R23). -/
  phaseR : Word
  /-- The LUT storage (10_state.md R41). -/
  lut : Memory
  /-- Host port output: the data of the latest host read, none before the first (42_control.md R145). -/
  readData : Option Word
  /-- Stream port output: the frames of the latest buffer (30_encoding.md R85). -/
  framesOut : List Frame
  /-- Stream port output: the result code of the latest buffer (30_encoding.md R85). -/
  bufferResult : Option Word
  /-- The agents' steps still to come, the next first (20_memory.md R61; log entry 1). -/
  pending : List Arrival
  /-- Model's own: how many NaNs have been drawn, the index of the next draw (log entry 5). -/
  nanDraws : Nat
  /-- Model's own: how many resets have happened, the index of the unspecified LUT contents (log entry 6). -/
  lutEpoch : Nat
  /-- The parameters of 00_scope.md R7, fixed for the machine: no step writes them (log entry 7). -/
  params : Params
deriving DecidableEq, Repr

/-- The block after its first reset (10_state.md R46, 70_reset_and_hazards.md R180), with the default
parameters (00_scope.md R7), nothing on the ports and no agent step to come. -/
def State.reset : State where
  running := false
  tableValid := false
  err := 0#4
  sampleRate := 44100#32
  freq := 0x403E000000000000#64
  fpb := 64#32
  fpbActive := 0#32
  length := 0#32
  phaseL := 0#32
  phaseR := 0#32
  lut := []
  readData := none
  framesOut := []
  bufferResult := none
  pending := []
  nanDraws := 0
  lutEpoch := 0
  params := Params.default

end Sys2Proof.Machine
end

