-- ==== Sys2Proof/Machine/Assembler.lean ====
section
/-! DEFINITION. The notation of block programs (30_encoding.md R90, R91): lines, pseudo-instructions and
their expansions, and the arrivals they stand for. -/

namespace Sys2Proof.Machine

/-- The offsets of the named registers (10_state.md R30). -/
def cmdOffset : Offset := 0x00000#19
def statusOffset : Offset := 0x00004#19
def sampleRateOffset : Offset := 0x00008#19
def freqLoOffset : Offset := 0x0000C#19
def freqHiOffset : Offset := 0x00010#19
def fpbOffset : Offset := 0x00014#19
def lengthOffset : Offset := 0x00018#19
def phaseLOffset : Offset := 0x0001C#19
def phaseROffset : Offset := 0x00020#19
def fpbActiveOffset : Offset := 0x00024#19

/-- The offset of LUT window entry i, `0x40000 + 4 * i` (10_state.md R40). DESIGN CHOICE: R40 gives an entry
i below 65536 only, and for a larger i this is the low 19 bits of the sum (log entry 19). -/
def lutOffset (i : Nat) : Offset := BitVec.ofNat 19 (0x40000 + 4 * i)

/-- A line of a program, one agent step (30_encoding.md R90). -/
inductive Line where
  | wr (off : Offset) (v : Word)
  | rd (off : Offset)
  | buf (frames : List Frame)
  | reset
deriving DecidableEq, Repr

/-- The agent step of a line; WR and RD in BUS listing form (30_encoding.md R91). -/
def Line.arrival : Line → Arrival
  | .wr off v => .host (busWord .write .four off v)
  | .rd off => .host (busWord .read .four off 0#32)
  | .buf frames => .stream (frames.map Frame.bits)
  | .reset => .reset

/-- The pseudo-instructions (30_encoding.md R91). -/
inductive Pseudo where
  | nop
  | build
  | start
  | stop
  | setsr (n : Word)
  | setfreq (x : DWord)
  | setfpb (n : Word)
  | rdlut (i : Nat)
deriving DecidableEq, Repr

/-- Their expansions (30_encoding.md R91). -/
def Pseudo.expand : Pseudo → List Line
  | .nop => [.wr cmdOffset 0x00000000#32]
  | .build => [.wr cmdOffset 0x00000001#32]
  | .start => [.wr cmdOffset 0x00000002#32]
  | .stop => [.wr cmdOffset 0x00000003#32]
  | .setsr n => [.wr sampleRateOffset n]
  | .setfreq x => [.wr freqLoOffset (x.extractLsb' 0 32), .wr freqHiOffset (x.extractLsb' 32 32)]
  | .setfpb n => [.wr fpbOffset n]
  | .rdlut i => [.rd (lutOffset i)]

end Sys2Proof.Machine
end

