-- ==== Sys2Proof/Machine/Flags.lean ====
section
/-! DEFINITION. The flags of STATUS: the ERR codes and the word a read of STATUS returns. -/

namespace Sys2Proof.Machine

/-- The number of an error code (60_exceptions.md R161). -/
def ErrCode.bits : ErrCode → BitVec 4
  | .ok => 0#4
  | .invalidFrequency => 1#4
  | .tableOverflow => 2#4
  | .busy => 3#4
  | .noTable => 4#4
  | .badFpb => 5#4
  | .illegalCommand => 6#4
  | .cfgLocked => 7#4

/-- A read of STATUS: `{20'b0, ERR[3:0], 6'b0, TABLE_VALID, RUNNING}` (10_state.md R32). -/
def State.statusWord (s : State) : Word :=
  cat 32 0#20 (cat 12 s.err (cat 8 0#6 (cat 2 (BitVec.ofBool s.tableValid) (BitVec.ofBool s.running))))

end Sys2Proof.Machine
end

