-- ==== Sys2Proof/Machine/Float.lean ====
section
/-! DEFINITION. The floating-point primitives of 00_scope.md R9: IEEE 754 binary32 and binary64, exact
values as naturals, one rounding to nearest with ties to even. A finite magnitude is a whole number of
units, the format's least subnormal, so every operation is an exact fraction of naturals rounded once. -/

namespace Sys2Proof.Machine

/-- An interchange format: the widths of the exponent and fraction fields (00_scope.md R9). -/
structure FloatFormat where
  expBits : Nat
  fracBits : Nat
deriving DecidableEq, Repr

/-- binary32: sign 31, exponent 30:23, fraction 22:0 (00_scope.md R9). -/
def binary32 : FloatFormat := ⟨8, 23⟩

/-- binary64: sign 63, exponent 62:52, fraction 51:0 (00_scope.md R9). -/
def binary64 : FloatFormat := ⟨11, 52⟩

namespace FloatFormat

/-- The place of the sign bit. -/
def signPos (f : FloatFormat) : Nat := f.expBits + f.fracBits

/-- The magnitude field: the exponent and fraction bits. -/
def mag (f : FloatFormat) (bits : Nat) : Nat := bits % 2 ^ f.signPos

/-- The sign bit. -/
def neg (f : FloatFormat) (bits : Nat) : Bool := bits.testBit f.signPos

/-- The magnitude of an infinity: exponent all ones, fraction 0. -/
def infMag (f : FloatFormat) : Nat := (2 ^ f.expBits - 1) * 2 ^ f.fracBits

/-- `isNaN(x)` (00_scope.md R9). -/
def isNaN (f : FloatFormat) (bits : Nat) : Bool := decide (f.infMag < f.mag bits)

/-- The value is an infinity of either sign. -/
def isInf (f : FloatFormat) (bits : Nat) : Bool := decide (f.mag bits = f.infMag)

/-- The value is a zero of either sign. -/
def isZero (f : FloatFormat) (bits : Nat) : Bool := decide (f.mag bits = 0)

/-- 1.0 is `2 ^ scale` units: a unit is 2^-149 in binary32 and 2^-1074 in binary64. Irreducible, so that
no elaboration unfolds a power of it; the kernel evaluates it, and `unfold` opens it. -/
@[irreducible] def scale (f : FloatFormat) : Nat := 2 ^ (f.expBits - 1) + f.fracBits - 2

/-- The exact magnitude of a finite value, in units: `|real(x)| * 2 ^ scale` (00_scope.md R9). A
subnormal is used at its value. -/
def units (f : FloatFormat) (bits : Nat) : Nat :=
  let e := f.mag bits / 2 ^ f.fracBits
  let frac := f.mag bits % 2 ^ f.fracBits
  if e = 0 then frac else (frac + 2 ^ f.fracBits) * 2 ^ (e - 1)

/-- The magnitude field of `num / den` units rounded to nearest with ties to even, with gradual
underflow; what rounds past the largest finite magnitude is an infinity (41_modulation_engine.md R122,
item 4). `t` is how many low bits of the exact value a significand of `fracBits + 1` bits drops. -/
def roundMag (f : FloatFormat) (num den : Nat) : Nat :=
  let t := Nat.log2 (num / den) + 1 - (f.fracBits + 1)
  let d := den * 2 ^ t
  let k := num / d
  let r := num % d
  let k' := if d < 2 * r ∨ (2 * r = d ∧ k % 2 = 1) then k + 1 else k
  min (t * 2 ^ f.fracBits + k') f.infMag

/-- A bit pattern from its sign and its magnitude field. -/
def pack (f : FloatFormat) (sign : Bool) (m : Nat) : Nat := (if sign then 2 ^ f.signPos else 0) + m

/-- The product, `none` where it is a NaN (41_modulation_engine.md R122): 1. a NaN operand, or an
infinity times a zero; 2. an infinity; 3., 4. the exact product rounded, its sign the XOR. -/
def mul (f : FloatFormat) (a b : Nat) : Option Nat :=
  let sign := f.neg a ^^ f.neg b
  if f.isNaN a || f.isNaN b || (f.isInf a && f.isZero b) || (f.isZero a && f.isInf b) then none
  else if f.isInf a || f.isInf b then some (f.pack sign f.infMag)
  else some (f.pack sign (f.roundMag (f.units a * f.units b) (2 ^ f.scale)))

/-- The quotient, `none` where it is a NaN (00_scope.md R9): a NaN operand, infinity over infinity or
zero over zero; else an infinity, a zero, or the exact quotient rounded. -/
def div (f : FloatFormat) (a b : Nat) : Option Nat :=
  let sign := f.neg a ^^ f.neg b
  if f.isNaN a || f.isNaN b || (f.isInf a && f.isInf b) || (f.isZero a && f.isZero b) then none
  else if f.isInf a || f.isZero b then some (f.pack sign f.infMag)
  else if f.isInf b then some (f.pack sign 0)
  else some (f.pack sign (f.roundMag (f.units a * 2 ^ f.scale) (f.units b)))

/-- The number a finite value denotes, `real(x)` (00_scope.md R9). -/
def real (f : FloatFormat) (bits : Nat) : Rat :=
  (if f.neg bits then -1 else 1) * (f.units bits : Rat) / 2 ^ f.scale

end FloatFormat

/-- `f32mul(a, b)`, `none` where the result is a NaN to be drawn (41_modulation_engine.md R122). -/
@[irreducible] def f32mul (a b : Sample) : Option Sample :=
  (binary32.mul a.toNat b.toNat).map (BitVec.ofNat 32)

/-- The quiet NaN of a draw: exponent all ones, bit 22 set, the sign and the other 22 fraction bits
drawn (41_modulation_engine.md R122, item 1). -/
def quietNaN (draw : BitVec 23) : Sample :=
  cat 32 (draw.extractLsb' 22 1) (cat 31 0xFF#8 (cat 23 1#1 (draw.extractLsb' 0 22)))

/-- A binary32 quiet NaN: exponent all ones and bit 22 set (41_modulation_engine.md R122). -/
def isQuietNaN (x : Sample) : Bool := x.extractLsb' 23 8 == 0xFF#8 && x.getLsbD 22

/-- `f64mul(a, b)`, `none` for a NaN (00_scope.md R9). -/
@[irreducible] def f64mul (a b : DWord) : Option DWord := (binary64.mul a.toNat b.toNat).map (BitVec.ofNat 64)

/-- `f64div(a, b)`, `none` for a NaN (00_scope.md R9). -/
@[irreducible] def f64div (a b : DWord) : Option DWord := (binary64.div a.toNat b.toNat).map (BitVec.ofNat 64)

/-- `toF64(n)`: the binary64 value of a natural number (00_scope.md R9). -/
@[irreducible] def toF64 (n : Nat) : DWord := BitVec.ofNat 64 (binary64.roundMag (n * 2 ^ binary64.scale) 1)

/-- `toF32(x)` of a finite binary64 value: rounded to binary32, nearest with ties to even
(00_scope.md R9). -/
@[irreducible] def toF32 (x : DWord) : Sample :=
  BitVec.ofNat 32 (binary32.pack (binary64.neg x.toNat)
    (binary32.roundMag (binary64.units x.toNat) (2 ^ (binary64.scale - binary32.scale))))

/-- `floor(x)` of a finite binary64 value that is not negative (00_scope.md R8). -/
@[irreducible] def f64floor (x : DWord) : Nat := binary64.units x.toNat / 2 ^ binary64.scale

/-- `isNaN` of a binary64 value. -/
def f64isNaN (x : DWord) : Bool := binary64.isNaN x.toNat

/-- `x = +infinity` or `-infinity`. -/
def f64isInf (x : DWord) : Bool := binary64.isInf x.toNat

/-- `x <= 0` numerically, for an x that is no NaN: a zero of either sign, or a negative value,
-infinity among them (40_table_builder.md R103 (b)). -/
def f64nonPositive (x : DWord) : Bool := binary64.isZero x.toNat || binary64.neg x.toNat

end Sys2Proof.Machine
end

