-- ==== Sys2Proof/Machine/SineRef.lean ====
section
/-! DEFINITION. SINE_REF, the default SINE_ROM (40_table_builder.md R106), with `sin64` by an exact Taylor
sum rounded once. -/

namespace Sys2Proof.Machine

/-- The fraction `p / q` with `p / q = 1 - x^2/(2k(2k+1)) * (1 - x^2/((2k+2)(2k+3)) * ( ... ))`, `n` levels
deep, for x = a / b: the Taylor sum of `sin x / x` by Horner's rule, exactly, when k = 1. -/
def sinSeries (a b : Nat) : Nat → Nat → Int × Nat
  | 0, _ => (1, 1)
  | n + 1, k =>
    match sinSeries a b n (k + 1) with
    | (p, q) => ((b * b * (2 * k) * (2 * k + 1) * q : Nat) - (a * a : Nat) * p,
        b * b * (2 * k) * (2 * k + 1) * q)

/-- How many terms after the first the sum takes: for `0 <= x < 2*pi` the rest is below 2^-190. -/
def sinTerms : Nat := 40

/-- `sin64(x)` for a binary64 `0 <= x < 2*pi`, the arguments SINE_REF gives it (40_table_builder.md R106):
the exact Taylor sum rounded to nearest, ties to even (log entry 9). -/
@[irreducible] def sin64 (x : DWord) : DWord :=
  let u := binary64.units x.toNat
  let g := Nat.gcd u (2 ^ binary64.scale)
  let a := u / g
  let b := 2 ^ binary64.scale / g
  match sinSeries a b sinTerms 1 with
  | (p, q) =>
    BitVec.ofNat 64 (binary64.pack (decide (p < 0))
      (binary64.roundMag (a * p.natAbs * 2 ^ binary64.scale) (b * q)))

/-- `TWO_PI64` (40_table_builder.md R106). -/
def twoPi64 : DWord := 0x401921FB54442D18#64

/-- The argument `f64div(f64mul(TWO_PI64, toF64(i)), toF64(L))` of SINE_REF (40_table_builder.md R106);
`none` would be a NaN, which no `1 <= L` gives. -/
def sineArg (L i : Nat) : Option DWord :=
  (f64mul twoPi64 (toF64 i)).bind fun y => f64div y (toF64 L)

/-- `SINE_REF(L, i)` (40_table_builder.md R106); at L = 0, outside its domain, +0.0. -/
@[irreducible] def sineRef (L i : Nat) : Sample :=
  match sineArg L i with
  | some x => toF32 (sin64 x)
  | none => 0#32

end Sys2Proof.Machine
end

