-- ==== Sys2Proof/Machine/SineRom.lean ====
section
/-! DEFINITION. SINE_ROM (40_table_builder.md R104, R105): SINE_REF, or any function with P0 to P3. Whether a
value is within 2^-24 of the true sine (P2) is decided exactly, in integers, with no value of the sine or of
pi: the sine is a root of a Chebyshev polynomial, and sign changes count the roots above a number. -/

namespace Sys2Proof.Machine

/-- The sign changes, zeros skipped, of the next `n` values of `w'' = 2x w' - d^2 w`, the first of them `a` and
the second `b`, after a value of sign `last`. -/
def signChanges (x d : Int) : Nat → Int → Int → Int → Nat
  | 0, _, _, _ => 0
  | n + 1, last, a, b =>
    if a = 0 ∨ a.sign = last then signChanges x d n last b (2 * x * b - d * d * a)
    else signChanges x d n a.sign b (2 * x * b - d * d * a) + 1

/-- `cos(k * pi / n) > x / d`, for `k <= n`. The roots of the Chebyshev polynomial U_(n-1) are the cosines for
k from 1 to n - 1, and the sign changes of `d^m * U_m(x / d)`, m from 0 to n - 1, count those above x / d. -/
def cosAbove (n k : Nat) (x d : Int) : Bool :=
  if x ≤ -d then decide (x < -d ∨ k < n)
  else decide (x < d ∧ k ≤ signChanges x d n 1 1 (2 * x))

/-- The k with `sin(2 * pi * i / L) = cos(k * pi / (2 * L))` and `k <= 2 * L`, for `i < L`. -/
def sineAngle (L i : Nat) : Nat :=
  if 4 * i ≤ L then L - 4 * i
  else if 4 * i ≤ 3 * L then 4 * i - L
  else 5 * L - 4 * i

/-- The exact value of a finite binary32 pattern, in units of 2^-149. -/
def sampleUnits (v : Sample) : Int :=
  if binary32.neg v.toNat then -(binary32.units v.toNat : Int) else binary32.units v.toNat

/-- P2 of 40_table_builder.md R105: `|real(v) - sin(2 * pi * i / L)| <= 2^-24`, exactly. -/
def nearSine (L i : Nat) (v : Sample) : Bool :=
  let one : Int := 2 ^ binary32.scale
  let eps : Int := 2 ^ (binary32.scale - 24)
  !cosAbove (2 * L) (sineAngle L i) (sampleUnits v + eps) one &&
    !cosAbove (2 * L) (2 * L - sineAngle L i) (eps - sampleUnits v) one

/-- `v` may be entry i of a table of length L: P0, P1 and P2 of 40_table_builder.md R105. -/
def entryLegal (L i : Nat) (v : Sample) : Bool :=
  (i != 0 || v == 0#32) && decide (binary32.mag v.toNat ≤ 0x3F800000) && nearSine L i v

/-- Any function with P0 to P3 of 40_table_builder.md R105, made of the free one: a raw entry that P0, P1 and
P2 allow stands, and in place of another stands SINE_REF's, which meets them (R106). P3 holds because it is a
function of L and i. -/
def sineFree (L i : Nat) : Sample :=
  if entryLegal L i (Config.sineRom L i) then Config.sineRom L i else sineRef L i

/-- `SINE_ROM(L, i)` (40_table_builder.md R104, R105). -/
def sineRom (rom : SineRom) (L i : Nat) : Sample :=
  match rom with
  | .reference => sineRef L i
  | .free => sineFree L i

end Sys2Proof.Machine
end

