-- ==== Sys2Proof/Machine/Ops.lean ====
section
/-! DEFINITION. The named operations over the LUT, the registers and the ports, the errors, and reset. -/

namespace Sys2Proof.Machine

/-- What a step answers. -/
abbrev Result := Host.Outcome State Fault Refusal

/-! The LUT storage. -/

/-- Entry i where a BUILD has written it since the reset. -/
def Memory.read (m : Memory) (i : Nat) : Option Sample := m[i]?

/-- Writes entries 0 to n-1 and leaves the others (40_table_builder.md R101, R107). -/
def Memory.writeTable (m : Memory) (n : Nat) (entry : Nat → Sample) : Memory :=
  (List.range n).map entry ++ m.drop n

/-- The storage holds no entry at or above LUT_DEPTH_MAX (10_state.md R41, R44). -/
def Memory.wf (m : Memory) (depth : Nat) : Bool := decide (m.length ≤ depth)

/-- `lut[i]` (00_scope.md R10): the entry written last, or the unspecified value the latest reset left
there (10_state.md R41, R46). -/
def State.lutEntry (s : State) (i : Nat) : Sample :=
  match s.lut.read i with
  | some v => v
  | none => Config.lutUnspecified s.lutEpoch i

/-! Registers. -/

/-- `reg[ERR] <- code` (10_state.md R29). -/
def State.setErr (s : State) (c : ErrCode) : State := { s with err := c.bits }

/-- `reg[RUNNING] <- b` (10_state.md R27). -/
def State.setRunning (s : State) (b : Bool) : State := { s with running := b }

/-- Both phase accumulators (10_state.md R22, R23). -/
def State.setPhases (s : State) (l r : Word) : State := { s with phaseL := l, phaseR := r }

/-- `reg[FPB_ACTIVE] <- n` (10_state.md R38). -/
def State.setFpbActive (s : State) (n : Word) : State := { s with fpbActive := n }

/-- The read value of a configuration register (10_state.md R33, R34, R35). -/
def State.config (s : State) : ConfigReg → Word
  | .sampleRate => s.sampleRate
  | .freqLo => s.freq.extractLsb' 0 32
  | .freqHi => s.freq.extractLsb' 32 32
  | .fpb => s.fpb

/-- `reg[R] <- v` for a configuration register; each half of FREQ on its own (10_state.md R34). -/
def State.setConfig (s : State) (r : ConfigReg) (v : Word) : State :=
  match r with
  | .sampleRate => { s with sampleRate := v }
  | .freqLo => { s with freq := cat 64 (s.freq.extractLsb' 32 32) v }
  | .freqHi => { s with freq := cat 64 v (s.freq.extractLsb' 0 32) }
  | .fpb => { s with fpb := v }

/-- The table a BUILD of length L leaves: entries 0 to L-1, LENGTH and TABLE_VALID
(40_table_builder.md R104, R107). -/
def State.loadTable (s : State) (L : Nat) : State :=
  { s with
    lut := s.lut.writeTable L (sineRom s.params.sineRom L)
    length := BitVec.ofNat 32 L
    tableValid := true }

/-! Ports. -/

/-- The data a host read returns (42_control.md R145). -/
def State.setReadData (s : State) (v : Word) : State := { s with readData := some v }

/-- Empties the stream output before a buffer. -/
def State.openOutput (s : State) : State := { s with framesOut := [], bufferResult := none }

/-- `emit FrameOut(l, r)` (00_scope.md R10). -/
def State.emitFrame (s : State) (f : Frame) : State := { s with framesOut := s.framesOut ++ [f] }

/-- The result code of a buffer (41_modulation_engine.md R125). -/
def State.setBufferResult (s : State) (code : Word) : State := { s with bufferResult := some code }

/-- The agents' steps still to come. -/
def State.setPending (s : State) (as : List Arrival) : State := { s with pending := as }

/-! Draws and products. -/

/-- The next NAN_DRAW is taken (00_scope.md R10). -/
def State.takeDraw (s : State) : State := { s with nanDraws := s.nanDraws + 1 }

/-- One sample times one table entry: `f32mul`, and a fresh draw where the product is a NaN
(41_modulation_engine.md R122). -/
def State.mulSample (s : State) (a b : Sample) : Sample × State :=
  match f32mul a b with
  | some r => (r, s)
  | none => (quietNaN (Config.nanDraw s.nanDraws), s.takeDraw)

/-- `p -> (if p + 1 >= L then 0 else p + 1)` on naturals (41_modulation_engine.md R121, R123). -/
def advancePhase (p L : Word) : Word :=
  if L.toNat ≤ p.toNat + 1 then 0#32 else BitVec.ofNat 32 (p.toNat + 1)

/-- FRAME's pseudocode (41_modulation_engine.md R121), which FRAME and every frame of a BUFFER perform. -/
def State.modulate (s : State) (f : Frame) : Result :=
  if s.phaseL.toNat < s.length.toNat ∧ s.phaseR.toNat < s.length.toNat then
    match s.mulSample f.left (s.lutEntry s.phaseL.toNat) with
    | (outL, s1) =>
      match s1.mulSample f.right (s.lutEntry s.phaseR.toNat) with
      | (outR, s2) =>
        .next ((s2.emitFrame ⟨outL, outR⟩).setPhases (advancePhase s.phaseL s.length)
          (advancePhase s.phaseR s.length))
  else .fault .realTimeFault

/-- FRAME on each frame in increasing order (41_modulation_engine.md R124); a fault ends the loop. -/
def modulateAll : List Frame → State → Result
  | [], s => .next s
  | f :: fs, s =>
    match s.modulate f with
    | .next t => modulateAll fs t
    | .fault e => .fault e
    | .refused e => .refused e

/-! Errors. The block has no trap entry and no trap return (60_exceptions.md R165, R166): an error is one
write of ERR, and an access error a response on the host port. -/

/-- `error(CODE)`: ERR is written and nothing else (60_exceptions.md R160). -/
def State.error (s : State) (c : ErrCode) : Result := .next (s.setErr c)

/-- `raise AccessError(off)`, a fault of the HOST agent's step (60_exceptions.md R168). -/
def raiseAccessError (off : Offset) : Result := .fault (.accessError off)

/-! Reset. -/

/-- A reset (70_reset_and_hazards.md R180): every element at its 10_state.md R46 value, the ports empty,
every LUT entry unspecified anew. The agents' steps to come, the draws and the parameters are not the
block's and stay. -/
def State.performReset (s : State) : State :=
  { State.reset with
    pending := s.pending
    nanDraws := s.nanDraws
    lutEpoch := s.lutEpoch + 1
    params := s.params }

end Sys2Proof.Machine
end

