-- ==== Sys2Proof/Machine/Arrivals.lean ====
section
/-! DEFINITION. The ports' inputs: taking the next agent step and decoding it, and placing one. -/

namespace Sys2Proof.Machine

/-- What the next agent step is, with the state after it has been taken off the list. -/
inductive Fetched where
  | idle
  | reset (s : State)
  | instr (i : Instr) (s : State)
  | invalid (why : DecodeError)
deriving DecidableEq, Repr

/-- A decoded unit, or its rejection. -/
def fetched (d : Except DecodeError Instr) (s : State) : Fetched :=
  match d with
  | .ok i => .instr i s
  | .error e => .invalid e

/-- Takes the next agent step: the host port carries BUS accesses and the stream port BUFFERs
(20_memory.md R60, 30_encoding.md R80). -/
def State.fetch (s : State) : Fetched :=
  match s.pending with
  | [] => .idle
  | .reset :: rest => .reset (s.setPending rest)
  | .host access :: rest => fetched (decode (.bus access)) (s.setPending rest)
  | .stream frames :: rest => fetched (decode (.buffer frames)) (s.setPending rest)

/-- The agent step that carries a unit: a command word is a host write to CMD (30_encoding.md R80); a
FRAME occurs only inside a BUFFER, here the buffer of that one frame (41_modulation_engine.md). -/
def Encoded.arrival : Encoded → Arrival
  | .cmd w => .host (busWord .write .four cmdOffset w)
  | .bus w => .host w
  | .frame w => .stream [w]
  | .buffer ws => .stream ws

/-- The state with a unit as the next agent step. -/
def State.withUnit (s : State) (u : Encoded) : State := s.setPending (Encoded.arrival u :: s.pending)

end Sys2Proof.Machine
end

