-- ==== Sys2Proof/Machine/Operands.lean ====
section
/-! DEFINITION. Operand assembly (30_encoding.md R86, R87, R88): what an offset of the host port names,
what a host read of it returns, and the operands of BUILD and START. -/

namespace Sys2Proof.Machine

/-- What a legal host access reaches (30_encoding.md R87, 10_state.md R30). -/
inductive Target where
  | lutWindow (i : Nat)
  | cmd
  | status
  | config (r : ConfigReg)
  | length
  | phaseL
  | phaseR
  | fpbActive
  | reserved
deriving DecidableEq, Repr

/-- Offset decoding: OFFSET[18] selects the LUT window, OFFSET[17:2] the entry or the register
(30_encoding.md R87). -/
def target (off : Offset) : Target :=
  let index := (off.extractLsb' 2 16).toNat
  if off.getLsbD 18 then .lutWindow index
  else
    match index with
    | 0 => .cmd
    | 1 => .status
    | 2 => .config .sampleRate
    | 3 => .config .freqLo
    | 4 => .config .freqHi
    | 5 => .config .fpb
    | 6 => .length
    | 7 => .phaseL
    | 8 => .phaseR
    | 9 => .fpbActive
    | _ => .reserved

/-- The platform's address of an offset (10_state.md R30, R43); no rule of the block reads it. -/
def registerAddress (off : Offset) : Nat := Config.blockBase + off.toNat

/-- `LUT_WINDOW(i)` (10_state.md R40). -/
def State.lutWindow (s : State) (i : Nat) : Word :=
  if s.tableValid = true ∧ i < s.length.toNat then s.lutEntry i else 0#32

/-- What a legal host read returns (42_control.md R145). -/
def State.readTarget (s : State) : Target → Word
  | .lutWindow i => s.lutWindow i
  | .cmd => 0#32
  | .status => s.statusWord
  | .config r => s.config r
  | .length => s.length
  | .phaseL => s.phaseL
  | .phaseR => s.phaseR
  | .fpbActive => s.fpbActive
  | .reserved => 0#32

/-- The length BUILD computes from `SR` and `F`, or the error it reports (40_table_builder.md R101 to
R103), with `depth = LUT_DEPTH_MAX`. The quotient of a natural and a positive F is no NaN, so the `none`
branch is never taken (log entry 10). -/
def tableLength (depth : Nat) (sr : Word) (f : DWord) : Except ErrCode Nat :=
  if f64isNaN f || f64nonPositive f then .error .invalidFrequency
  else
    match f64div (toF64 sr.toNat) f with
    | none => .error .invalidFrequency
    | some q =>
      if f64isInf q then .error .tableOverflow
      else if depth < f64floor q then .error .tableOverflow
      else if f64floor q < 1 then .error .invalidFrequency
      else .ok (f64floor q)

/-- BUILD's operands are SAMPLE_RATE and {FREQ_HI, FREQ_LO} as they stand (30_encoding.md R86,
70_reset_and_hazards.md R185). -/
def State.buildLength (s : State) : Except ErrCode Nat :=
  tableLength s.params.lutDepthMax s.sampleRate s.freq

/-- START's operand `N = reg[FPB]` is legal: `1 <= N <= FPB_MAX` (30_encoding.md R86, 42_control.md
R142). -/
def State.fpbLegal (s : State) : Bool :=
  !(s.fpb == 0#32) && decide (s.fpb.toNat ≤ s.params.fpbMax)

end Sys2Proof.Machine
end

