-- ==== Sys2Proof/Machine/Engine.lean ====
section
/-! DEFINITION. The modulation engine: FRAME and BUFFER (41_modulation_engine.md). -/

namespace Sys2Proof.Machine

/-- FRAME (41_modulation_engine.md R121). -/
def execFrame (left right : Sample) (s : State) : Result := s.modulate ⟨left, right⟩

/-- CONTINUE, the one result code of a buffer (41_modulation_engine.md R125). -/
def continueCode : Word := 0#32

/-- The guard of a BUFFER: RUNNING = 1 and n = FPB_ACTIVE (41_modulation_engine.md R124). -/
def State.admits (s : State) (n : Nat) : Bool := s.running && decide (n = s.fpbActive.toNat)

/-- BUFFER (41_modulation_engine.md R124, R125). -/
def execBuffer (frames : List Frame) (s : State) : Result :=
  if s.admits frames.length then
    match modulateAll frames s.openOutput with
    | .next t => .next (t.setBufferResult continueCode)
    | .fault e => .fault e
    | .refused e => .refused e
  else .refused .bufferNotAdmitted

end Sys2Proof.Machine
end

