-- ==== Sys2Proof/Machine/Builder.lean ====
section
/-! DEFINITION. The table builder: BUILD (40_table_builder.md). -/

namespace Sys2Proof.Machine

/-- BUILD (40_table_builder.md R101, R103, R107, R108). -/
def execBuild (s : State) : Result :=
  if s.running then s.error .busy
  else
    match s.buildLength with
    | .error c => s.error c
    | .ok L => .next (((s.loadTable L).setPhases 0#32 0#32).setErr .ok)

end Sys2Proof.Machine
end

