-- ==== Sys2Proof/Machine/Control.lean ====
section
/-! DEFINITION. The control commands NOP, START, STOP and the reserved commands (42_control.md). -/

namespace Sys2Proof.Machine

/-- NOP (42_control.md R141). -/
def execNop (s : State) : Result := .next (s.setErr .ok)

/-- START (42_control.md R142), its checks in the order of 60_exceptions.md R164. -/
def execStart (s : State) : Result :=
  if s.running then s.error .busy
  else if s.tableValid = false then s.error .noTable
  else if s.fpbLegal = false then s.error .badFpb
  else .next ((((s.setFpbActive s.fpb).setPhases 0#32 0#32).setRunning true).setErr .ok)

/-- STOP (42_control.md R143). -/
def execStop (s : State) : Result := .next ((s.setRunning false).setErr .ok)

/-- ILLEGAL_CMD (42_control.md R144): whatever the reserved word, `error(ILLEGAL_COMMAND)`. -/
def execIllegalCmd (_rsv : BitVec 28) (_op : BitVec 4) (s : State) : Result := s.error .illegalCommand

end Sys2Proof.Machine
end

