-- ==== Sys2Proof/Machine/HostPort.lean ====
section
/-! DEFINITION. The host register port: RD, WR, the command dispatch, the configuration writes and the
access errors (42_control.md R140, R145 to R147, 60_exceptions.md R168). -/

namespace Sys2Proof.Machine

/-- `CMD_WRITE(w)` (42_control.md R140). -/
def cmdWrite (w : Word) (s : State) : Result :=
  let rsv := w.extractLsb' 4 28
  let op := w.extractLsb' 0 4
  if commandReserved rsv op then execIllegalCmd rsv op s
  else if op = 0#4 then execNop s
  else if op = 1#4 then execBuild s
  else if op = 2#4 then execStart s
  else execStop s

/-- `CFG_WRITE(R, v)` and its lock (42_control.md R147). -/
def cfgWrite (r : ConfigReg) (v : Word) (s : State) : Result :=
  if s.running then s.error .cfgLocked else .next ((s.setConfig r v).setErr .ok)

/-- A legal host write (42_control.md R146): commands and configuration registers; anything else is
ignored. -/
def writeTarget (t : Target) (v : Word) (s : State) : Result :=
  match t with
  | .cmd => cmdWrite v s
  | .config r => cfgWrite r v s
  | .lutWindow _ => .next s
  | .status => .next s
  | .length => .next s
  | .phaseL => .next s
  | .phaseR => .next s
  | .fpbActive => .next s
  | .reserved => .next s

/-- RD (42_control.md R145): the alignment check, then the read, which changes no state; its data goes
out on the host port. -/
def execRd (off : Offset) (s : State) : Result :=
  if accessLegal .four off then .next (s.setReadData (s.readTarget (target off)))
  else raiseAccessError off

/-- WR (42_control.md R146): the alignment check, then the write. -/
def execWr (off : Offset) (v : Word) (s : State) : Result :=
  if accessLegal .four off then writeTarget (target off) v s else raiseAccessError off

/-- ACCESS_ERROR (60_exceptions.md R168): the access "is not performed", whatever it is. -/
def execAccessError (_dir : Direction) (_size : AccessSize) (off : Offset) (_data : Word) (_s : State) :
    Result :=
  raiseAccessError off

end Sys2Proof.Machine
end

