-- ==== Sys2Proof/Machine/Dispatch.lean ====
section
/-! DEFINITION. The dispatch: one arm per constructor of Instr. -/

namespace Sys2Proof.Machine

def exec (i : Instr) (s : State) : Host.Outcome State Fault Refusal :=
  match i with
  | .nop => Sys2Proof.Machine.execNop s
  | .build => Sys2Proof.Machine.execBuild s
  | .start => Sys2Proof.Machine.execStart s
  | .stop => Sys2Proof.Machine.execStop s
  | .illegalCmd rsv op => Sys2Proof.Machine.execIllegalCmd rsv op s
  | .rd off => Sys2Proof.Machine.execRd off s
  | .wr off data => Sys2Proof.Machine.execWr off data s
  | .accessError dir size off data => Sys2Proof.Machine.execAccessError dir size off data s
  | .frame left right => Sys2Proof.Machine.execFrame left right s
  | .buffer frames => Sys2Proof.Machine.execBuffer frames s

end Sys2Proof.Machine
end

