-- ==== Sys2Proof/Machine/Step.lean ====
section
/-! DEFINITION. One step of the block: the next agent step of `pending` is taken and performed
(20_memory.md R60, R61). -/

namespace Sys2Proof.Machine

/-- One step. With no agent step to come the block takes none of its own and stays as it is
(20_memory.md R60, 60_exceptions.md R174). -/
def step (s : State) : Host.Outcome State Fault Refusal :=
  match s.fetch with
  | .idle => .next s
  | .reset t => .next t.performReset
  | .instr i t => exec i t
  | .invalid e => .refused (.undecodable e)

/-- The state with the word's unit as the next agent step (log entry 12). -/
def State.withFetchWord (s : State) (nbits w : Nat) : State := s.withUnit (tableUnit nbits w)

end Sys2Proof.Machine
end

