-- ==== Sys2Proof/Safety.lean ====
section
/-! DEFINITION. What counts as a good state and a safe step, and the terms the statements use. -/

namespace Sys2Proof.Machine

/-- The phase invariant and the lockstep (10_state.md R24, R25). -/
abbrev State.PhaseInv (s : State) : Prop :=
  (s.tableValid = true → s.phaseL.toNat < s.length.toNat ∧ s.phaseR.toNat < s.length.toNat) ∧
  (s.tableValid = false → s.phaseL = 0#32 ∧ s.phaseR = 0#32) ∧
  s.phaseL = s.phaseR

/-- The flag invariants (10_state.md R48). -/
abbrev State.FlagInv (s : State) : Prop :=
  (s.tableValid = true ↔ 1 ≤ s.length.toNat ∧ s.length.toNat ≤ s.params.lutDepthMax) ∧
  (s.tableValid = false → s.length = 0#32) ∧
  (s.running = true →
    s.tableValid = true ∧ 1 ≤ s.fpbActive.toNat ∧ s.fpbActive.toNat ≤ s.params.fpbMax)

/-- The LUT storage fits LUT_DEPTH_MAX and covers the table (10_state.md R41). -/
abbrev State.StorageInv (s : State) : Prop :=
  s.lut.wf s.params.lutDepthMax = true ∧ s.length.toNat ≤ s.lut.length

/-- ERR codes 8 to 15 are never produced (60_exceptions.md R161). -/
abbrev State.ErrInv (s : State) : Prop := s.err.toNat ≤ 7

/-- The invariant of the block between steps, for legal parameters (00_scope.md R7). -/
abbrev State.Inv (s : State) : Prop :=
  s.params.Legal ∧ s.PhaseInv ∧ s.FlagInv ∧ s.StorageInv ∧ s.ErrInv

/-- The table holds what BUILD computed: entry i is SINE_ROM(LENGTH, i) (10_state.md R41,
40_table_builder.md R104). -/
abbrev State.TableInv (s : State) : Prop :=
  ∀ i, i < s.length.toNat →
    s.lut.read i = some (sineRom s.params.sineRom s.length.toNat i)

/-- A safe step: it does not end in RealTimeFault (60_exceptions.md R167). -/
def SafeStep (s : State) : Prop :=
  match step s with
  | .fault .realTimeFault => False
  | .fault (.accessError _) => True
  | .next _ => True
  | .refused _ => True

/-- `r` is what the block may emit for `a` times `b`: the binary32 product, and where that is a NaN any
quiet NaN (41_modulation_engine.md R122). -/
def ProductOf (a b r : Sample) : Prop :=
  match f32mul a b with
  | some x => r = x
  | none => isQuietNaN r = true

/-- The finite values of a format: the exponent field is not all ones. -/
def FloatFormat.Finite (f : FloatFormat) (bits : Nat) : Prop :=
  bits < 2 ^ (f.signPos + 1) ∧ f.mag bits < f.infMag

/-- `r` is the finite value nearest to `x`, and of two nearest ones the one with an even significand
(00_scope.md R9). -/
def FloatFormat.NearestEven (f : FloatFormat) (x : Rat) (r : Nat) : Prop :=
  f.Finite r ∧
  ∀ y, f.Finite y →
    |f.real r - x| ≤ |f.real y - x| ∧
    (|f.real r - x| = |f.real y - x| → f.real y = f.real r ∨ r % 2 = 0)

/-- The least magnitude that rounds past the largest finite value: halfway from it to the next power of
two (41_modulation_engine.md R122, item 4). -/
def FloatFormat.overflowBound (f : FloatFormat) : Rat :=
  ((2 ^ (f.fracBits + 2) - 1) * 2 ^ (2 ^ f.expBits - 4) : Nat) / (2 ^ f.scale : Nat)

/-- Every element of 10_state.md R46 is at its reset value, and no LUT entry is specified. -/
def State.AtReset (t : State) : Prop :=
  t.running = false ∧ t.tableValid = false ∧ t.err = ErrCode.ok.bits ∧ t.sampleRate = 0x0000AC44#32 ∧
  t.freq = 0x403E000000000000#64 ∧ t.fpb = 0x00000040#32 ∧ t.fpbActive = 0#32 ∧ t.length = 0#32 ∧
  t.phaseL = 0#32 ∧ t.phaseR = 0#32 ∧ (∀ i, t.lut.read i = none) ∧ ∀ i, t.lutWindow i = 0#32

end Sys2Proof.Machine
end

