-- ==== Sys2Proof/Certificates/Slice0/Obligations.lean ====
section
/-! DEFINITION. The statements for the provers. Each docstring names the rule of spec/ it formalises. -/

open Sys2Proof Sys2Proof.Machine

/-! ## Reset -/

/-- 10_state.md R46: after the first reset and after a reset step from any state every element of state has
its reset value, and every LUT entry is unspecified and reads as 0 through the window. -/
def Obligations.ResetSetsEveryElement : Prop :=
  State.reset.AtReset ∧
  ∀ (s : State) (rest : List Arrival), s.pending = .reset :: rest →
    ∃ t, step s = .next t ∧ t.AtReset

/-- 70_reset_and_hazards.md R180: after a reset no BUFFER is admitted, whatever its length. -/
def Obligations.NoBufferAfterReset : Prop :=
  ∀ (s : State) (rest : List Arrival), s.pending = .reset :: rest →
    ∃ t, step s = .next t ∧ ∀ fs, exec (.buffer fs) t = .refused .bufferNotAdmitted

/-! ## Steps, decoding and encoding -/

/-- 20_memory.md R60, R61: a step is the next agent step: what a host access or a delivered buffer decodes
to is executed on the state without it; a unit that decodes to nothing is refused; with nothing to come the
block stays as it is. That the agents' steps stand in a list is the model's choice (log entry 1). -/
def Obligations.StepRunsTheDecodedInstruction : Prop :=
  (∀ s : State, s.pending = [] → step s = .next s) ∧
  (∀ (s : State) (w : DWord) (rest : List Arrival) (i : Instr), s.pending = .host w :: rest →
    decode (.bus w) = .ok i → step s = exec i (s.setPending rest)) ∧
  (∀ (s : State) (ws : List DWord) (rest : List Arrival) (i : Instr), s.pending = .stream ws :: rest →
    decode (.buffer ws) = .ok i → step s = exec i (s.setPending rest)) ∧
  (∀ (s : State) (w : DWord) (rest : List Arrival) (e : DecodeError), s.pending = .host w :: rest →
    decode (.bus w) = .error e → step s = .refused (.undecodable e)) ∧
  (∀ (s : State) (ws : List DWord) (rest : List Arrival) (e : DecodeError),
    s.pending = .stream ws :: rest → decode (.buffer ws) = .error e →
    step s = .refused (.undecodable e))

/-- 42_control.md R140: a host write of a word to CMD, and so a step that carries it, performs the one
command the word encodes; a BUS unit performs its access, and a BUFFER unit of a legal number of frames the
BUFFER of those frames, frame 0 first (30_encoding.md R85). That a FRAME word on the stream port is read as the
buffer of that one frame is the model's choice (log entry 12). -/
def Obligations.UnitsReachTheirInstruction : Prop :=
  (∀ (s : State) (w : Word), step (s.withUnit (.cmd w)) = exec (decodeCommand w) s) ∧
  (∀ (s : State) (w : Word), exec (.wr 0x00000#19 w) s = exec (decodeCommand w) s) ∧
  (∀ (s : State) (w : DWord) (i : Instr), decode (.bus w) = .ok i →
    step (s.withUnit (.bus w)) = exec i s) ∧
  (∀ (s : State) (ws : List DWord), 1 ≤ ws.length → ws.length < 2 ^ 32 →
    step (s.withUnit (.buffer ws)) = exec (.buffer (ws.map Frame.ofBits)) s) ∧
  (∀ (s : State) (w : DWord), step (s.withUnit (.frame w)) = exec (.buffer [Frame.ofBits w]) s)

/-- 30_encoding.md R80 to R85: decoding the encoding of a well-formed instruction gives it back, every
operand at every value. -/
def Obligations.DecodeEncodeRoundTrip : Prop :=
  ∀ i : Instr, i.wf = true → decode (encode i) = .ok i

/-- 30_encoding.md R80 to R85: what a unit decodes to is well-formed, and encodes back to the unit, but for
the WDATA of a read, which is ignored (R83). -/
def Obligations.DecodedInstructionsAreWellFormed : Prop :=
  ∀ (u : Encoded) (i : Instr), decode u = .ok i →
    i.wf = true ∧
    (encode i = u ∨
      ∃ w : DWord, u = .bus w ∧ w.getLsbD 63 = false ∧
        encode i = .bus (w &&& 0xFFFFFFFF00000000#64))

/-- 30_encoding.md R83: a BUS word is rejected exactly when RSVB is not 0 or SIZE is 4 or more, and a step
that meets it is refused. -/
def Obligations.WordsThatSpellNoAccess : Prop :=
  (∀ w : DWord,
    decode (.bus w) = .error .spellsNoAccess ↔
      (w.extractLsb' 54 9 ≠ 0#9 ∨ 4 ≤ (w.extractLsb' 51 3).toNat)) ∧
  ∀ (s : State) (w : DWord) (rest : List Arrival), s.pending = .host w :: rest →
    (w.extractLsb' 54 9 ≠ 0#9 ∨ 4 ≤ (w.extractLsb' 51 3).toNat) →
    step s = .refused (.undecodable .spellsNoAccess)

/-- 20_memory.md R62, R63: a word goes out as its bytes, bits 7:0 first, and a frame as the bytes of its left
sample and then of its right. -/
def Obligations.BytesAreLittleEndian : Prop :=
  (∀ w : Word, bytesOfNat 4 w.toNat =
    [w.extractLsb' 0 8, w.extractLsb' 8 8, w.extractLsb' 16 8, w.extractLsb' 24 8]) ∧
  ∀ f : Frame, (Encoded.frame f.bits).bytes = bytesOfNat 4 f.left.toNat ++ bytesOfNat 4 f.right.toNat

/-- 20_memory.md R62, R63 and 30_encoding.md R80: decoding the bytes of a unit is decoding the unit. That a BUS
listing word has bytes, in little-endian order, is the model's choice (log entry 20). -/
def Obligations.ByteSerialDecoding : Prop :=
  ∀ u : Encoded, decodeBytes u.format u.bytes = decode u

/-- 30_encoding.md R82, R83, R84, R85, R91 and the listing words of 95_test_vectors.md: one unit of each row,
the BUFFER of two different frames, frame 0 first. -/
def Obligations.FamilyWordsDecode : Prop :=
  decode (.cmd 0x00000000#32) = .ok .nop ∧
  decode (.cmd 0x00000001#32) = .ok .build ∧
  decode (.cmd 0x00000002#32) = .ok .start ∧
  decode (.cmd 0x00000003#32) = .ok .stop ∧
  decode (.cmd 0x80000003#32) = .ok (.illegalCmd 0x8000000#28 0x3#4) ∧
  decode (.bus 0x0010000400000000#64) = .ok (.rd 0x00004#19) ∧
  decode (.bus 0x8010001400000080#64) = .ok (.wr 0x00014#19 128#32) ∧
  decode (.bus 0x80080004FFFFFFFF#64) = .ok (.accessError .write .two 0x00004#19 0xFFFFFFFF#32) ∧
  decode (.bus 0x0020000400000000#64) = .error .spellsNoAccess ∧
  decode (.frame 0xBF0000003F000000#64) = .ok (.frame 0x3F000000#32 0xBF000000#32) ∧
  decode (.buffer [0xBF0000003F000000#64, 0x3F8000003F800000#64]) =
    .ok (.buffer [⟨0x3F000000#32, 0xBF000000#32⟩, ⟨0x3F800000#32, 0x3F800000#32⟩])

/-- 30_encoding.md R91: the pseudo-instructions stand for the BUS words of 95_test_vectors.md. -/
def Obligations.PseudoInstructionsExpand : Prop :=
  (Pseudo.nop.expand.map Line.arrival = [.host 0x8010000000000000#64]) ∧
  (Pseudo.build.expand.map Line.arrival = [.host 0x8010000000000001#64]) ∧
  (Pseudo.start.expand.map Line.arrival = [.host 0x8010000000000002#64]) ∧
  (Pseudo.stop.expand.map Line.arrival = [.host 0x8010000000000003#64]) ∧
  ((Pseudo.setsr 4#32).expand.map Line.arrival = [.host 0x8010000800000004#64]) ∧
  ((Pseudo.setfreq 0x403E000000000000#64).expand.map Line.arrival =
    [.host 0x8010000C00000000#64, .host 0x80100010403E0000#64]) ∧
  ((Pseudo.setfpb 3#32).expand.map Line.arrival = [.host 0x8010001400000003#64]) ∧
  ((Pseudo.rdlut 735).expand.map Line.arrival = [.host 0x00140B7C00000000#64])

/-! ## Commands -/

/-- 42_control.md R141: NOP is legal in every state and writes ERR = OK and nothing else. -/
def Obligations.NopOnlyClearsErr : Prop :=
  decodeCommand 0x00000000#32 = .nop ∧ ∀ s : State, exec .nop s = .next { s with err := 0#4 }

/-- 42_control.md R143: STOP clears RUNNING, sets ERR to OK and changes nothing else; after it no BUFFER is
admitted. -/
def Obligations.StopClosesTheStream : Prop :=
  decodeCommand 0x00000003#32 = .stop ∧
  ∀ s : State, exec .stop s = .next { s with running := false, err := 0#4 } ∧
    ∀ n, State.admits { s with running := false, err := 0#4 } n = false

/-- 42_control.md R142: START's checks in order, BUSY, NO_TABLE, BAD_FPB, each writing only ERR; else it
latches FPB, sets both phases to 0 and RUNNING to 1, and admits exactly the buffers of FPB frames. -/
def Obligations.StartOutcome : Prop :=
  decodeCommand 0x00000002#32 = .start ∧
  ∀ s : State,
    exec .start s = .next
      (if s.running = true then { s with err := 3#4 }
       else if s.tableValid = false then { s with err := 4#4 }
       else if s.fpb = 0#32 ∨ s.params.fpbMax < s.fpb.toNat then { s with err := 5#4 }
       else { s with
         fpbActive := s.fpb
         phaseL := 0#32
         phaseR := 0#32
         running := true
         err := 0#4 }) ∧
    ∀ t, exec .start s = .next t → t.err = 0#4 → ∀ n, t.admits n = true ↔ n = s.fpb.toNat

/-- 42_control.md R144: a reserved command word, whichever, only sets ERR to ILLEGAL_COMMAND (6), in every
state; reserved bits are enough to make it one. -/
def Obligations.IllegalCommandOnlySetsErr : Prop :=
  (∀ (rsv : BitVec 28) (op : BitVec 4) (s : State),
    exec (.illegalCmd rsv op) s = .next { s with err := 6#4 }) ∧
  ∀ (w : Word) (s : State), w.extractLsb' 4 28 ≠ 0#28 ∨ 4 ≤ (w.extractLsb' 0 4).toNat →
    decodeCommand w = .illegalCmd (w.extractLsb' 4 28) (w.extractLsb' 0 4) ∧
    exec (.wr 0x00000#19 w) s = .next { s with err := 6#4 }

/-! ## BUILD -/

/-- 40_table_builder.md R101, R103, R107, R108: BUILD completes in every state. It reports BUSY (3),
INVALID_FREQUENCY (1) or TABLE_OVERFLOW (2), writing only ERR, or it writes entries 0 to L-1 with
SINE_ROM(L, i), leaves the other entries, sets LENGTH, TABLE_VALID and both phases, and nothing else. -/
def Obligations.BuildOutcome : Prop :=
  ∀ s : State,
    (s.running = true → exec .build s = .next { s with err := 3#4 }) ∧
    (s.running = false → f64isNaN s.freq = true ∨ f64nonPositive s.freq = true →
      exec .build s = .next { s with err := 1#4 }) ∧
    (s.running = false → f64isNaN s.freq = false → f64nonPositive s.freq = false →
      ∃ q, f64div (toF64 s.sampleRate.toNat) s.freq = some q ∧
        (f64isInf q = true ∨ s.params.lutDepthMax < f64floor q →
          exec .build s = .next { s with err := 2#4 }) ∧
        (f64isInf q = false → f64floor q < 1 → exec .build s = .next { s with err := 1#4 }) ∧
        (f64isInf q = false → 1 ≤ f64floor q → f64floor q ≤ s.params.lutDepthMax →
          ∃ m : Memory,
            exec .build s = .next { s with
              lut := m
              length := BitVec.ofNat 32 (f64floor q)
              tableValid := true
              phaseL := 0#32
              phaseR := 0#32
              err := 0#4 } ∧
            (∀ i, i < f64floor q → m.read i = some (sineRom s.params.sineRom (f64floor q) i)) ∧
            ∀ i, f64floor q ≤ i → m.read i = s.lut.read i))

/-- 40_table_builder.md R102: the length BUILD takes is the exact floor of SR / F or one more, and it is the
quotient itself where that is a natural number (70_reset_and_hazards.md R191). -/
def Obligations.BuildLengthNearExactFloor : Prop :=
  ∀ (depth : Nat) (sr : Word) (f : DWord) (L : Nat), depth ≤ 65536 → tableLength depth sr f = .ok L →
    ⌊(sr.toNat : ℚ) / binary64.real f.toNat⌋ ≤ (L : ℤ) ∧
    (L : ℤ) ≤ ⌊(sr.toNat : ℚ) / binary64.real f.toNat⌋ + 1 ∧
    ∀ n : Nat, (n : ℚ) * binary64.real f.toNat = (sr.toNat : ℚ) → L = n

/-- 40_table_builder.md R109: two successful BUILDs of one block give the same length for the same SR and F,
and whatever SR and F were, the same table for the same length. -/
def Obligations.SameLengthSameTable : Prop :=
  ∀ s₁ s₂ t₁ t₂ : State, s₁.params.Legal → s₂.params = s₁.params →
    exec .build s₁ = .next t₁ → exec .build s₂ = .next t₂ → t₁.err = 0#4 → t₂.err = 0#4 →
    (s₁.sampleRate = s₂.sampleRate → s₁.freq = s₂.freq → t₁.length = t₂.length) ∧
    (t₁.length = t₂.length → ∀ i, i < t₁.length.toNat →
      t₁.lut.read i = t₂.lut.read i ∧ t₁.lutWindow i = t₂.lutWindow i)

/-! ## Arithmetic -/

/-- 00_scope.md R9, 40_table_builder.md R102: `f64div` of finite values is the exact quotient rounded to
nearest, ties to even, its sign the XOR of the signs; past the largest finite value it is an infinity. -/
def Obligations.DivisionIsCorrectlyRounded : Prop :=
  ∀ a b : DWord, binary64.Finite a.toNat → binary64.Finite b.toNat → binary64.isZero b.toNat = false →
    (|binary64.real a.toNat / binary64.real b.toNat| < binary64.overflowBound →
      ∃ q, f64div a b = some q ∧
        binary64.NearestEven (binary64.real a.toNat / binary64.real b.toNat) q.toNat ∧
        binary64.neg q.toNat = (binary64.neg a.toNat ^^ binary64.neg b.toNat)) ∧
    (binary64.overflowBound ≤ |binary64.real a.toNat / binary64.real b.toNat| →
      f64div a b = some (BitVec.ofNat 64
        (binary64.pack (binary64.neg a.toNat ^^ binary64.neg b.toNat) binary64.infMag)))

/-- 41_modulation_engine.md R122, items 3 and 4: `f32mul` of finite values is the exact product rounded to
nearest, ties to even, with gradual underflow, its sign the XOR of the signs; a magnitude that rounds to 2^128
or above is an infinity. -/
def Obligations.ProductIsCorrectlyRounded : Prop :=
  ∀ a b : Sample, binary32.Finite a.toNat → binary32.Finite b.toNat →
    (|binary32.real a.toNat * binary32.real b.toNat| < binary32.overflowBound →
      ∃ r, f32mul a b = some r ∧
        binary32.NearestEven (binary32.real a.toNat * binary32.real b.toNat) r.toNat ∧
        binary32.neg r.toNat = (binary32.neg a.toNat ^^ binary32.neg b.toNat)) ∧
    (binary32.overflowBound ≤ |binary32.real a.toNat * binary32.real b.toNat| →
      f32mul a b = some (BitVec.ofNat 32
        (binary32.pack (binary32.neg a.toNat ^^ binary32.neg b.toNat) binary32.infMag)))

/-- 41_modulation_engine.md R122, items 1 to 3: the product is a NaN exactly for a NaN operand or an infinity
times a zero; else with an infinite operand it is an infinity, and of finite operands with a zero a zero,
its sign the XOR of the signs. -/
def Obligations.ProductSpecialCases : Prop :=
  ∀ a b : Sample,
    (f32mul a b = none ↔
      binary32.isNaN a.toNat = true ∨ binary32.isNaN b.toNat = true ∨
      (binary32.isInf a.toNat = true ∧ binary32.isZero b.toNat = true) ∨
      (binary32.isZero a.toNat = true ∧ binary32.isInf b.toNat = true)) ∧
    (f32mul a b ≠ none → binary32.isInf a.toNat = true ∨ binary32.isInf b.toNat = true →
      f32mul a b = some (BitVec.ofNat 32
        (binary32.pack (binary32.neg a.toNat ^^ binary32.neg b.toNat) binary32.infMag))) ∧
    (binary32.Finite a.toNat → binary32.Finite b.toNat →
      binary32.isZero a.toNat = true ∨ binary32.isZero b.toNat = true →
      f32mul a b = some (BitVec.ofNat 32
        (binary32.pack (binary32.neg a.toNat ^^ binary32.neg b.toNat) 0)))

/-- 41_modulation_engine.md R129: an all-ones input reproduces the table entry bit for bit. -/
def Obligations.UnitSampleReproducesTheEntry : Prop :=
  ∀ t : Sample, binary32.Finite t.toNat → f32mul 0x3F800000#32 t = some t

/-- 41_modulation_engine.md R129: for a finite sample and an entry in [-1, 1] the output is finite and no
larger than the input. -/
def Obligations.OutputNoLargerThanInput : Prop :=
  ∀ a t : Sample, binary32.Finite a.toNat → binary32.mag t.toNat ≤ 0x3F800000 →
    ∃ r, f32mul a t = some r ∧ binary32.Finite r.toNat ∧ binary32.mag r.toNat ≤ binary32.mag a.toNat

/-- 40_table_builder.md R105, P0: entry 0 is +0.0 for every L, for SINE_REF and for any other SINE_ROM. -/
def Obligations.SineRomStartsAtZero : Prop :=
  ∀ (rom : SineRom) (L : Nat), 1 ≤ L → L ≤ 65536 → sineRom rom L 0 = 0x00000000#32

/-- 40_table_builder.md R105, P1: every entry is finite and in [-1, 1], for SINE_REF and for any other
SINE_ROM. -/
def Obligations.SineRomWithinOne : Prop :=
  ∀ (rom : SineRom) (L i : Nat), 1 ≤ L → L ≤ 65536 → i < L →
    binary32.mag (sineRom rom L i).toNat ≤ 0x3F800000

/-- 40_table_builder.md R105 P2, which R106 says SINE_REF meets: every entry is within 2^-24 of the true
sine. -/
def Obligations.SineRefIsAccurate : Prop :=
  ∀ L i : Nat, 1 ≤ L → L ≤ 65536 → i < L →
    |((binary32.real (sineRef L i).toNat : ℚ) : ℝ) - Real.sin (2 * Real.pi * i / L)| ≤ 1 / 2 ^ 24

/-! ## The engine -/

/-- 41_modulation_engine.md R121, R123: with both phases below LENGTH, FRAME completes: it emits the products
with the entries at the two phases, advances each phase by `(p + 1) mod L`, and changes nothing else (the
count of NaN draws is the model's own, log entry 5); otherwise it is the fault RealTimeFault. -/
def Obligations.FrameOutcome : Prop :=
  ∀ (s : State) (left right : Sample),
    (s.phaseL.toNat < s.length.toNat → s.phaseR.toNat < s.length.toNat →
      ∃ o d,
        exec (.frame left right) s = .next { s with
          framesOut := s.framesOut ++ [o]
          phaseL := BitVec.ofNat 32 ((s.phaseL.toNat + 1) % s.length.toNat)
          phaseR := BitVec.ofNat 32 ((s.phaseR.toNat + 1) % s.length.toNat)
          nanDraws := d } ∧
        ProductOf left (s.lutEntry s.phaseL.toNat) o.left ∧
        ProductOf right (s.lutEntry s.phaseR.toNat) o.right) ∧
    (¬ (s.phaseL.toNat < s.length.toNat ∧ s.phaseR.toNat < s.length.toNat) →
      exec (.frame left right) s = .fault .realTimeFault)

/-- 41_modulation_engine.md R124, R129: an admitted BUFFER with the phases below LENGTH completes: output
frame k holds the products with the entries at phases `(p + k) mod L`, the phases end n frames on, the result
is CONTINUE (0) and nothing else changes; a buffer outside the guard has no step; a phase out of range is
RealTimeFault. -/
def Obligations.BufferOutcome : Prop :=
  ∀ (s : State) (fs : List Frame),
    (s.running = true → fs.length = s.fpbActive.toNat →
      s.phaseL.toNat < s.length.toNat → s.phaseR.toNat < s.length.toNat →
      ∃ outs d,
        exec (.buffer fs) s = .next { s with
          framesOut := outs
          bufferResult := some 0#32
          phaseL := BitVec.ofNat 32 ((s.phaseL.toNat + fs.length) % s.length.toNat)
          phaseR := BitVec.ofNat 32 ((s.phaseR.toNat + fs.length) % s.length.toNat)
          nanDraws := d } ∧
        outs.length = fs.length ∧
        ∀ k f o, fs[k]? = some f → outs[k]? = some o →
          ProductOf f.left (s.lutEntry ((s.phaseL.toNat + k) % s.length.toNat)) o.left ∧
          ProductOf f.right (s.lutEntry ((s.phaseR.toNat + k) % s.length.toNat)) o.right) ∧
    (s.running = false ∨ fs.length ≠ s.fpbActive.toNat →
      exec (.buffer fs) s = .refused .bufferNotAdmitted) ∧
    (s.running = true → fs.length = s.fpbActive.toNat → fs ≠ [] →
      ¬ (s.phaseL.toNat < s.length.toNat ∧ s.phaseR.toNat < s.length.toNat) →
      exec (.buffer fs) s = .fault .realTimeFault)

/-- 41_modulation_engine.md R126, R128: from a good running state, j delivered buffers are j steps that
complete and leave both phases `j * FPB_ACTIVE` frames on, modulo L, with the stream still open and the table
as it was. -/
def Obligations.RunOfBuffersAdvancesThePhases : Prop :=
  ∀ (s : State) (bufs : List (List DWord)) (rest : List Arrival), s.Inv → s.running = true →
    s.pending = bufs.map Arrival.stream ++ rest → (∀ b ∈ bufs, b.length = s.fpbActive.toNat) →
    ∃ t, Host.Core.run Sys2Proof.core bufs.length s = .next t ∧
      t.phaseL.toNat = (s.phaseL.toNat + bufs.length * s.fpbActive.toNat) % s.length.toNat ∧
      t.phaseR.toNat = (s.phaseR.toNat + bufs.length * s.fpbActive.toNat) % s.length.toNat ∧
      t.running = true ∧ t.pending = rest ∧ t.length = s.length ∧ t.lut = s.lut ∧
      t.fpbActive = s.fpbActive

/-- 41_modulation_engine.md R130: no lane reads the other's sample: the left output does not depend on the
right sample, nor a right output that is no NaN on the left one, nor any phase on either. Which quiet NaN the
right lane draws may depend on how many the left one drew (log entry 5). -/
def Obligations.LanesAreIndependent : Prop :=
  ∀ (s t t' : State) (l l' r r' : Sample),
    exec (.frame l r) s = .next t → exec (.frame l' r') s = .next t' →
    t.phaseL = t'.phaseL ∧ t.phaseR = t'.phaseR ∧
    ∃ o o', t.framesOut = s.framesOut ++ [o] ∧ t'.framesOut = s.framesOut ++ [o'] ∧
      (l = l' → o.left = o'.left) ∧
      (r = r' → f32mul r (s.lutEntry s.phaseR.toNat) ≠ none → o.right = o'.right)

/-! ## Host accesses -/

/-- 42_control.md R145: what a host read returns at every aligned offset, with no other effect; a misaligned
read, and one of another size, is an AccessError. -/
def Obligations.ReadsFollowTheRegisterMap : Prop :=
  ∀ s : State,
    exec (.rd 0x00000#19) s = .next { s with readData := some 0#32 } ∧
    exec (.rd 0x00004#19) s = .next { s with readData := some s.statusWord } ∧
    exec (.rd 0x00008#19) s = .next { s with readData := some s.sampleRate } ∧
    exec (.rd 0x0000C#19) s = .next { s with readData := some (s.freq.extractLsb' 0 32) } ∧
    exec (.rd 0x00010#19) s = .next { s with readData := some (s.freq.extractLsb' 32 32) } ∧
    exec (.rd 0x00014#19) s = .next { s with readData := some s.fpb } ∧
    exec (.rd 0x00018#19) s = .next { s with readData := some s.length } ∧
    exec (.rd 0x0001C#19) s = .next { s with readData := some s.phaseL } ∧
    exec (.rd 0x00020#19) s = .next { s with readData := some s.phaseR } ∧
    exec (.rd 0x00024#19) s = .next { s with readData := some s.fpbActive } ∧
    (∀ off : Offset, Offset.aligned off = true → 0x00028 ≤ off.toNat → off.toNat < 0x40000 →
      exec (.rd off) s = .next { s with readData := some 0#32 }) ∧
    (∀ i : Nat, i < 65536 →
      exec (.rd (BitVec.ofNat 19 (0x40000 + 4 * i))) s = .next { s with
        readData := some (if s.tableValid = true ∧ i < s.length.toNat then s.lutEntry i else 0#32) }) ∧
    (∀ off : Offset, Offset.aligned off = false → exec (.rd off) s = .fault (.accessError off)) ∧
    ∀ (size : AccessSize) (off : Offset) (d : Word), accessLegal size off = false →
      exec (.accessError .read size off d) s = .fault (.accessError off)

/-- 10_state.md R32: a read of STATUS returns RUNNING in bit 0, TABLE_VALID in bit 1, ERR in bits 11:8 and 0
elsewhere; a write is ignored and leaves ERR. -/
def Obligations.StatusFields : Prop :=
  ∀ (s : State) (v : Word),
    (∃ w, exec (.rd 0x00004#19) s = .next { s with readData := some w } ∧
      w.getLsbD 0 = s.running ∧ w.getLsbD 1 = s.tableValid ∧ w.extractLsb' 2 6 = 0#6 ∧
      w.extractLsb' 8 4 = s.err ∧ w.extractLsb' 12 20 = 0#20) ∧
    exec (.wr 0x00004#19 v) s = .next s

/-- 42_control.md R147: a configuration write while running only sets ERR to CFG_LOCKED (7); while stopped
it writes its register, one half of FREQ at a time, and ERR = OK, and nothing else. -/
def Obligations.ConfigurationWriteAndLock : Prop :=
  ∀ (s : State) (v : Word),
    exec (.wr 0x00008#19 v) s = .next
      (if s.running = true then { s with err := 7#4 } else { s with sampleRate := v, err := 0#4 }) ∧
    exec (.wr 0x0000C#19 v) s = .next
      (if s.running = true then { s with err := 7#4 }
       else { s with freq := cat 64 (s.freq.extractLsb' 32 32) v, err := 0#4 }) ∧
    exec (.wr 0x00010#19 v) s = .next
      (if s.running = true then { s with err := 7#4 }
       else { s with freq := cat 64 v (s.freq.extractLsb' 0 32), err := 0#4 }) ∧
    exec (.wr 0x00014#19 v) s = .next
      (if s.running = true then { s with err := 7#4 } else { s with fpb := v, err := 0#4 })

/-- 10_state.md R33, R34, R35: while stopped, a configuration register reads back the value written, and the
three others read as before. -/
def Obligations.ConfigurationReadsBack : Prop :=
  ∀ (s : State) (off off' : Offset) (v : Word),
    off ∈ [0x00008#19, 0x0000C#19, 0x00010#19, 0x00014#19] →
    off' ∈ [0x00008#19, 0x0000C#19, 0x00010#19, 0x00014#19] → s.running = false →
    ∃ t x, exec (.wr off v) s = .next t ∧
      exec (.rd off) t = .next { t with readData := some v } ∧
      (off' ≠ off → exec (.rd off') s = .next { s with readData := some x } ∧
        exec (.rd off') t = .next { t with readData := some x })

/-- 42_control.md R146: an aligned write anywhere but to CMD and the four configuration registers completes
and changes nothing. -/
def Obligations.OtherWritesAreIgnored : Prop :=
  ∀ (s : State) (off : Offset) (v : Word), Offset.aligned off = true →
    off ∉ [0x00000#19, 0x00008#19, 0x0000C#19, 0x00010#19, 0x00014#19] →
    exec (.wr off v) s = .next s

/-- 60_exceptions.md R168, 20_memory.md R64: an access whose size is not 4 bytes or whose offset is not a
multiple of 4 is the fault AccessError of the HOST agent's step, as an instruction and as a BUS word. -/
def Obligations.AccessErrorsStop : Prop :=
  (∀ (dir : Direction) (size : AccessSize) (off : Offset) (d : Word) (s : State),
    exec (.accessError dir size off d) s = .fault (.accessError off)) ∧
  (∀ (off : Offset) (v : Word) (s : State), Offset.aligned off = false →
    exec (.rd off) s = .fault (.accessError off) ∧ exec (.wr off v) s = .fault (.accessError off)) ∧
  ∀ (s : State) (w : DWord) (rest : List Arrival), s.pending = .host w :: rest →
    w.extractLsb' 54 9 = 0#9 → (w.extractLsb' 51 3).toNat < 4 →
    (w.extractLsb' 51 3 ≠ 2#3 ∨ w.extractLsb' 32 2 ≠ 0#2) →
    step s = .fault (.accessError (w.extractLsb' 32 19))

/-- 42_control.md R148: every aligned 4-byte read and write completes in every state. -/
def Obligations.HostAccessesComplete : Prop :=
  ∀ (s : State) (off : Offset) (v : Word), Offset.aligned off = true →
    (∃ t, exec (.rd off) s = .next t) ∧ ∃ t, exec (.wr off v) s = .next t

/-! ## Invariants and whole-machine rules -/

/-- 10_state.md R24, R25, R48: the state after reset meets the invariant, and its table the table rule. -/
def Obligations.ResetMeetsTheInvariant : Prop :=
  State.reset.Inv ∧ State.reset.TableInv

/-- 10_state.md R24, R25, R48: every step from a state that meets the invariant leaves one that meets it. The
invariant also says that the parameters are legal and the LUT storage fits and covers the table (log entries
6 and 7), and that ERR is at most 7. -/
def Obligations.StepKeepsTheInvariant : Prop :=
  ∀ s t : State, s.Inv → step s = .next t → t.Inv

/-- 10_state.md R41, R42, 40_table_builder.md R104: every step keeps the table: entries 0 to LENGTH-1 hold
SINE_ROM(LENGTH, i). -/
def Obligations.StepKeepsTheTable : Prop :=
  ∀ s t : State, s.Inv → s.TableInv → step s = .next t → t.TableInv

/-- 41_modulation_engine.md R127: from a state that meets the invariant no step ends in RealTimeFault. -/
def Obligations.RealTimeFaultIsUnreachable : Prop :=
  ∀ s : State, s.Inv → SafeStep s

/-- 10_state.md R27: RUNNING is set only by a START that succeeds and cleared only by STOP and reset. -/
def Obligations.OnlyStartSetsRunning : Prop :=
  ∀ s t : State, step s = .next t →
    (s.running = false → t.running = true →
      ∃ w rest, s.pending = .host w :: rest ∧ decode (.bus w) = .ok (.wr 0x00000#19 2#32) ∧
        t.err = 0#4) ∧
    (s.running = true → t.running = false →
      (∃ rest, s.pending = .reset :: rest) ∨
      ∃ w rest, s.pending = .host w :: rest ∧ decode (.bus w) = .ok (.wr 0x00000#19 3#32))

/-- 10_state.md R28, R36, R42: TABLE_VALID, LENGTH and the LUT change only by reset, which clears the first
two, and by a BUILD that succeeds while the stream is stopped, which sets TABLE_VALID. -/
def Obligations.OnlyBuildWritesTheTable : Prop :=
  ∀ s t : State, step s = .next t →
    t.tableValid ≠ s.tableValid ∨ t.length ≠ s.length ∨ t.lut ≠ s.lut ∨ t.lutEpoch ≠ s.lutEpoch →
    ((∃ rest, s.pending = .reset :: rest) ∧ t.tableValid = false ∧ t.length = 0#32) ∨
    (s.running = false ∧ t.tableValid = true ∧ t.err = 0#4 ∧
      ∃ w rest, s.pending = .host w :: rest ∧ decode (.bus w) = .ok (.wr 0x00000#19 1#32))

/-- 10_state.md R29, 20_memory.md R66: ERR changes only by reset and by a write to CMD or to a configuration
register; host reads, other writes and buffers leave it. -/
def Obligations.OnlyCommandAndConfigurationWritesChangeErr : Prop :=
  ∀ s t : State, step s = .next t → t.err ≠ s.err →
    (∃ rest, s.pending = .reset :: rest) ∨
    ∃ w rest off v, s.pending = .host w :: rest ∧ decode (.bus w) = .ok (.wr off v) ∧
      off ∈ [0x00000#19, 0x00008#19, 0x0000C#19, 0x00010#19, 0x00014#19]

/-- 20_memory.md R70, 70_reset_and_hazards.md R184: while running, no step but a reset changes a
configuration register, FPB_ACTIVE, LENGTH, TABLE_VALID or the LUT. -/
def Obligations.RunningLocksTableAndConfiguration : Prop :=
  ∀ s t : State, step s = .next t → s.running = true → (∀ rest, s.pending ≠ .reset :: rest) →
    t.sampleRate = s.sampleRate ∧ t.freq = s.freq ∧ t.fpb = s.fpb ∧ t.fpbActive = s.fpbActive ∧
    t.length = s.length ∧ t.tableValid = s.tableValid ∧ t.lut = s.lut ∧ t.lutEpoch = s.lutEpoch

/-- 20_memory.md R70, 10_state.md R22, R23: while running only a delivered buffer moves the phases; while
stopped a step leaves both or sets both to 0. -/
def Obligations.OnlyBuffersMoveThePhases : Prop :=
  ∀ s t : State, step s = .next t → (∀ rest, s.pending ≠ .reset :: rest) →
    (s.running = true → (∀ ws rest, s.pending ≠ .stream ws :: rest) →
      t.phaseL = s.phaseL ∧ t.phaseR = s.phaseR) ∧
    (s.running = false →
      (t.phaseL = s.phaseL ∧ t.phaseR = s.phaseR) ∨ (t.phaseL = 0#32 ∧ t.phaseR = 0#32))

/-- 00_scope.md R7, 20_memory.md R61: a step takes exactly the next agent step and never changes the
parameters (log entries 1 and 7). -/
def Obligations.StepTakesOneArrival : Prop :=
  ∀ s t : State, step s = .next t → t.pending = s.pending.tail ∧ t.params = s.params

/-- 60_exceptions.md R160: a command or a host write that leaves an error code in ERR has changed nothing
else. -/
def Obligations.FailedOperationsChangeOnlyErr : Prop :=
  ∀ (i : Instr) (s t : State),
    (i = .nop ∨ i = .build ∨ i = .start ∨ i = .stop ∨ (∃ rsv op, i = .illegalCmd rsv op) ∨
      ∃ off v, i = .wr off v) →
    exec i s = .next t → t.err ≠ 0#4 → t = { s with err := t.err }

/-- 10_state.md R40, R41, R47: what the LUT storage holds at and above LENGTH, and what a reset left in it,
is observed by no step: a step from a good state with other contents there answers the same, but for those
contents. -/
def Obligations.HiddenEntriesAreUnobservable : Prop :=
  ∀ (s : State) (m : Memory) (e : Nat), s.Inv →
    (∀ i, i < s.length.toNat → m.read i = s.lut.read i) →
    match step s with
    | .next t =>
      ∃ t', step { s with lut := m, lutEpoch := e } = .next t' ∧
        t' = { t with lut := t'.lut, lutEpoch := t'.lutEpoch } ∧
        ∀ i, i < t.length.toNat → t'.lut.read i = t.lut.read i
    | .fault f => step { s with lut := m, lutEpoch := e } = .fault f
    | .refused r => step { s with lut := m, lutEpoch := e } = .refused r

/-! ## SINE_ROM -/

/-- 40_table_builder.md R105, P2: every entry is within 2^-24 of the true sine, for SINE_REF and for any other
SINE_ROM. -/
def Obligations.SineRomIsAccurate : Prop :=
  ∀ (rom : SineRom) (L i : Nat), 1 ≤ L → L ≤ 65536 → i < L →
    |((binary32.real (sineRom rom L i).toNat : ℚ) : ℝ) - Real.sin (2 * Real.pi * i / L)| ≤ 1 / 2 ^ 24

/-- 40_table_builder.md R105: the values that the model lets a SINE_ROM other than SINE_REF hold are exactly
those that P0, P1 and P2 allow, and the free function's value stands wherever they allow it. -/
def Obligations.SineRomMayHoldEveryLegalEntry : Prop :=
  ∀ L i : Nat, i < L →
    (∀ v : Sample, entryLegal L i v = true ↔
      (i = 0 → v = 0x00000000#32) ∧ binary32.mag v.toNat ≤ 0x3F800000 ∧
      |((binary32.real v.toNat : ℚ) : ℝ) - Real.sin (2 * Real.pi * i / L)| ≤ 1 / 2 ^ 24) ∧
    (entryLegal L i (Config.sineRom L i) = true → sineRom .free L i = Config.sineRom L i)
end

