-- ==== Sys2Proof/Laws/Bits.lean ====
section
/-! SUPPORT. Concatenation and bit fields: a field of `{hi, lo}` is a field of one of the two, the value
of `{hi, lo}`, and the fields of the encoded words, of a quiet NaN and of STATUS. -/

namespace Sys2Proof

theorem cat_extract_low (w : Nat) {n m : Nat} (hi : BitVec n) (lo : BitVec m) (start len : Nat)
    (h : start + len ≤ m) (hw : start + len ≤ w) :
    (cat w hi lo).extractLsb' start len = lo.extractLsb' start len := by
  apply BitVec.eq_of_getLsbD_eq
  intro i hi'
  simp only [cat, BitVec.getLsbD_extractLsb', BitVec.getLsbD_setWidth, BitVec.getLsbD_append]
  rw [if_pos (by omega)]
  simp [show start + i < w by omega]

theorem cat_extract_high (w : Nat) {n m : Nat} (hi : BitVec n) (lo : BitVec m) (start len : Nat)
    (h : m ≤ start) (hw : start + len ≤ w) :
    (cat w hi lo).extractLsb' start len = hi.extractLsb' (start - m) len := by
  apply BitVec.eq_of_getLsbD_eq
  intro i hi'
  simp only [cat, BitVec.getLsbD_extractLsb', BitVec.getLsbD_setWidth, BitVec.getLsbD_append]
  rw [if_neg (by omega), show start + i - m = start - m + i by omega]
  simp [show start + i < w by omega]

theorem cat_getLsbD_high (w : Nat) {n m : Nat} (hi : BitVec n) (lo : BitVec m) (i : Nat)
    (h : m ≤ i) (hw : i < w) : (cat w hi lo).getLsbD i = hi.getLsbD (i - m) := by
  simp [cat, BitVec.getLsbD_append, hw, show ¬ i < m by omega]

/-- The value of `{hi, lo}` when it fits its width. -/
theorem cat_toNat (w : Nat) {n m : Nat} (hi : BitVec n) (lo : BitVec m) (h : n + m = w) :
    (cat w hi lo).toNat = hi.toNat * 2 ^ m + lo.toNat := by
  subst h
  have hlo := lo.isLt
  simp only [cat, BitVec.toNat_setWidth, BitVec.toNat_append]
  rw [Nat.mod_eq_of_lt, ← Nat.shiftLeft_add_eq_or_of_lt hlo, Nat.shiftLeft_eq]
  rw [← BitVec.toNat_append]
  exact (hi ++ lo).isLt

/-- A word is its two parts put together again. -/
theorem cat_split {w m n : Nat} (x : BitVec w) (h : n + m = w) :
    cat w (x.extractLsb' m n) (x.extractLsb' 0 m) = x := by
  apply BitVec.eq_of_getLsbD_eq
  intro i hi
  simp only [cat, BitVec.getLsbD_setWidth, BitVec.getLsbD_append, BitVec.getLsbD_extractLsb', hi,
    decide_true, Bool.true_and, Nat.zero_add]
  split
  · simp [*]
  · simp [show i - m < n by omega, show m + (i - m) = i by omega]

/-! The fields of a BUS word (30_encoding.md R83). -/

@[simp] theorem busWord_wdata (d : Direction) (z : AccessSize) (o : Offset) (v : Word) :
    (busWord d z o v).extractLsb' 0 32 = v := by
  unfold busWord
  rw [cat_extract_low, cat_extract_low, cat_extract_low, cat_extract_low, BitVec.extractLsb'_eq_self] <;>
    omega

@[simp] theorem busWord_offset (d : Direction) (z : AccessSize) (o : Offset) (v : Word) :
    (busWord d z o v).extractLsb' 32 19 = o := by
  unfold busWord
  rw [cat_extract_low, cat_extract_low, cat_extract_low, cat_extract_high, BitVec.extractLsb'_eq_self] <;>
    omega

@[simp] theorem busWord_size (d : Direction) (z : AccessSize) (o : Offset) (v : Word) :
    (busWord d z o v).extractLsb' 51 3 = z.code := by
  unfold busWord
  rw [cat_extract_low, cat_extract_low, cat_extract_high, BitVec.extractLsb'_eq_self] <;> omega

@[simp] theorem busWord_rsvb (d : Direction) (z : AccessSize) (o : Offset) (v : Word) :
    (busWord d z o v).extractLsb' 54 9 = 0#9 := by
  unfold busWord
  rw [cat_extract_low, cat_extract_high, BitVec.extractLsb'_eq_self] <;> omega

theorem busWord_dir (d : Direction) (z : AccessSize) (o : Offset) (v : Word) :
    (busWord d z o v).getLsbD 63 = (d == .write) := by
  unfold busWord
  rw [cat_getLsbD_high _ _ _ _ (by omega) (by omega)]
  cases d <;> rfl

@[simp] theorem busWord_getElem_dir (d : Direction) (z : AccessSize) (o : Offset) (v : Word) :
    (busWord d z o v)[63] = (d == .write) := busWord_dir d z o v

@[simp] theorem AccessSize.ofCode_code (z : AccessSize) : AccessSize.ofCode z.code = some z := by
  cases z <;> rfl

/-! The fields of a command word (30_encoding.md R81) and of a FRAME word (R84). -/

@[simp] theorem commandWord_op (rsv : BitVec 28) (op : BitVec 4) :
    (commandWord rsv op).extractLsb' 0 4 = op := by
  unfold commandWord
  rw [cat_extract_low, BitVec.extractLsb'_eq_self] <;> omega

@[simp] theorem commandWord_rsv (rsv : BitVec 28) (op : BitVec 4) :
    (commandWord rsv op).extractLsb' 4 28 = rsv := by
  unfold commandWord
  rw [cat_extract_high, BitVec.extractLsb'_eq_self] <;> omega

@[simp] theorem Frame.left_bits (f : Frame) : f.bits.extractLsb' 0 32 = f.left := by
  unfold Frame.bits
  rw [cat_extract_low, BitVec.extractLsb'_eq_self] <;> omega

@[simp] theorem Frame.right_bits (f : Frame) : f.bits.extractLsb' 32 32 = f.right := by
  unfold Frame.bits
  rw [cat_extract_high, BitVec.extractLsb'_eq_self] <;> omega

@[simp] theorem Frame.ofBits_bits (f : Frame) : Frame.ofBits f.bits = f := by
  simp [Frame.ofBits]

namespace Machine

/-- Every draw is a quiet NaN (41_modulation_engine.md R122, item 1). -/
theorem isQuietNaN_quietNaN (d : BitVec 23) : isQuietNaN (quietNaN d) = true := by
  have he : (quietNaN d).extractLsb' 23 8 = 0xFF#8 := by
    unfold quietNaN
    rw [cat_extract_low, cat_extract_high, BitVec.extractLsb'_eq_self] <;> omega
  have hq : (quietNaN d).getLsbD 22 = true := by
    have h : (quietNaN d).extractLsb' 22 1 = 1#1 := by
      unfold quietNaN
      rw [cat_extract_low, cat_extract_low, cat_extract_high, BitVec.extractLsb'_eq_self] <;> omega
    have h0 := congrArg (BitVec.getLsbD · 0) h
    simpa using h0
  simp [isQuietNaN, he, hq]

end Machine

end Sys2Proof
end

