-- ==== Sys2Proof/Laws/Float.lean ====
section
/-! SUPPORT. The rounding, the products and BUILD's length. -/

namespace Sys2Proof.Machine

theorem FloatFormat.roundMag_le_infMag (f : FloatFormat) (num den : Nat) :
    f.roundMag num den ≤ f.infMag := by
  simp [FloatFormat.roundMag]

theorem FloatFormat.roundMag_zero (f : FloatFormat) (den : Nat) : f.roundMag 0 den = 0 := by
  simp [FloatFormat.roundMag]

/-- What is not too large does not round to an infinity. -/
theorem FloatFormat.roundMag_lt_infMag (f : FloatFormat) (num den : Nat)
    (h : Nat.log2 (num / den) + 3 < 2 ^ f.expBits + f.fracBits) (he : 4 ≤ 2 ^ f.expBits) :
    f.roundMag num den < f.infMag := by
  have hlog : num / den < 2 ^ (Nat.log2 (num / den) + 1) := Nat.lt_log2_self
  set q := num / den with hq
  set t := Nat.log2 q + 1 - (f.fracBits + 1) with ht
  have hk : num / (den * 2 ^ t) < 2 ^ (f.fracBits + 1) := by
    rw [← Nat.div_div_eq_div_mul, ← hq, Nat.div_lt_iff_lt_mul (by positivity), ← pow_add]
    exact lt_of_lt_of_le hlog (Nat.pow_le_pow_right (by omega) (by omega))
  have hinf : t * 2 ^ f.fracBits + 2 ^ (f.fracBits + 1) < f.infMag := by
    have : t * 2 ^ f.fracBits + 2 ^ (f.fracBits + 1) = (t + 2) * 2 ^ f.fracBits := by ring
    rw [this]
    exact Nat.mul_lt_mul_of_pos_right (by omega) (by positivity)
  simp only [FloatFormat.roundMag, ← hq, ← ht]
  refine lt_of_le_of_lt (min_le_left _ _) ?_
  split <;> omega

/-- A product is a NaN exactly where item 1 of 41_modulation_engine.md R122 says so. -/
theorem f32mul_eq_none_iff (a b : Sample) :
    f32mul a b = none ↔
      binary32.isNaN a.toNat = true ∨ binary32.isNaN b.toNat = true ∨
      (binary32.isInf a.toNat = true ∧ binary32.isZero b.toNat = true) ∨
      (binary32.isZero a.toNat = true ∧ binary32.isInf b.toNat = true) := by
  simp only [f32mul, FloatFormat.mul, Option.map_eq_none_iff]
  split
  · simp_all [or_assoc]
  · split <;> simp_all

/-- `toF64` of a 32-bit number is finite and not negative: SAMPLE_RATE converts exactly
(40_table_builder.md R102). -/
theorem mag_toF64_lt {n : Nat} (h : n < 2 ^ 32) : (toF64 n).toNat < binary64.infMag := by
  have hlt : binary64.roundMag (n * 2 ^ binary64.scale) 1 < binary64.infMag := by
    apply FloatFormat.roundMag_lt_infMag
    · have hs : binary64.scale = 1074 := by unfold FloatFormat.scale; rfl
      have hn : n * 2 ^ binary64.scale / 1 < 2 ^ (32 + binary64.scale) := by
        rw [Nat.div_one, pow_add]
        exact Nat.mul_lt_mul_of_pos_right h (by positivity)
      have hl : Nat.log2 (n * 2 ^ binary64.scale / 1) ≤ 32 + binary64.scale := by
        by_cases h0 : n * 2 ^ binary64.scale / 1 = 0
        · rw [h0]; exact Nat.zero_le _
        · exact le_of_lt ((Nat.log2_lt h0).2 hn)
      have he : 2 ^ binary64.expBits + binary64.fracBits = 2100 := rfl
      omega
    · decide
  unfold toF64
  rw [BitVec.toNat_ofNat, Nat.mod_eq_of_lt]
  · exact hlt
  · have : binary64.infMag < 2 ^ 64 := by decide
    omega

/-- A length that BUILD accepts is at least 1 and fits the LUT (40_table_builder.md R103). -/
theorem tableLength_ok {depth : Nat} {sr : Word} {f : DWord} {L : Nat}
    (h : tableLength depth sr f = .ok L) : 1 ≤ L ∧ L ≤ depth := by
  unfold tableLength at h
  split at h
  · cases h
  · split at h
    · cases h
    · split at h
      · cases h
      · split at h
        · cases h
        · split at h
          · cases h
          · cases h; omega

/-- The only errors of the length computation are INVALID_FREQUENCY and TABLE_OVERFLOW. -/
theorem tableLength_error {depth : Nat} {sr : Word} {f : DWord} {c : ErrCode}
    (h : tableLength depth sr f = .error c) : c = .invalidFrequency ∨ c = .tableOverflow := by
  unfold tableLength at h
  split at h
  · cases h; exact .inl rfl
  · split at h
    · cases h; exact .inl rfl
    · split at h
      · cases h; exact .inr rfl
      · split at h
        · cases h; exact .inr rfl
        · split at h
          · cases h; exact .inl rfl
          · cases h

end Sys2Proof.Machine
end

