-- ==== Sys2Proof/Laws/Memory.lean ====
section
/-! SUPPORT. The LUT storage: read after write, and the form every operation on it keeps. -/

namespace Sys2Proof.Machine

theorem Memory.read_writeTable_lt (m : Memory) (n : Nat) (entry : Nat → Sample) (i : Nat) (h : i < n) :
    (m.writeTable n entry).read i = some (entry i) := by
  simp [Memory.read, Memory.writeTable, List.getElem?_append_left, h]

theorem Memory.read_writeTable_ge (m : Memory) (n : Nat) (entry : Nat → Sample) (i : Nat) (h : n ≤ i) :
    (m.writeTable n entry).read i = m.read i := by
  simp [Memory.read, Memory.writeTable, List.getElem?_append_right, h]

theorem Memory.length_writeTable (m : Memory) (n : Nat) (entry : Nat → Sample) :
    (m.writeTable n entry).length = max n m.length := by
  simp only [Memory.writeTable, List.length_append, List.length_map, List.length_range, List.length_drop]
  omega

/-- A write of a table that fits keeps the form. -/
theorem Memory.wf_writeTable (m : Memory) (n depth : Nat) (entry : Nat → Sample)
    (hm : m.wf depth = true) (hn : n ≤ depth) : (m.writeTable n entry).wf depth = true := by
  simp only [Memory.wf, decide_eq_true_eq, Memory.length_writeTable] at *
  omega

/-- The storage after a reset has the form: nothing is listed. -/
theorem Memory.wf_reset : State.reset.lut.wf State.reset.params.lutDepthMax = true := rfl

/-- An entry that has been written reads as written, whatever the latest reset left. -/
theorem State.lutEntry_of_read {s : State} {i : Nat} {v : Sample} (h : s.lut.read i = some v) :
    s.lutEntry i = v := by
  simp [State.lutEntry, h]

end Sys2Proof.Machine
end

