-- ==== Sys2Proof/Laws/State.lean ====
section
/-! SUPPORT. What each update of State leaves in each field, so that no proof unfolds a record update. -/

namespace Sys2Proof.Machine

/-! `State.setErr` -/

@[simp] theorem State.setErr_running (s : State) (c : ErrCode) :
    (s.setErr c).running = s.running := rfl
@[simp] theorem State.setErr_tableValid (s : State) (c : ErrCode) :
    (s.setErr c).tableValid = s.tableValid := rfl
@[simp] theorem State.setErr_err (s : State) (c : ErrCode) :
    (s.setErr c).err = c.bits := rfl
@[simp] theorem State.setErr_sampleRate (s : State) (c : ErrCode) :
    (s.setErr c).sampleRate = s.sampleRate := rfl
@[simp] theorem State.setErr_freq (s : State) (c : ErrCode) :
    (s.setErr c).freq = s.freq := rfl
@[simp] theorem State.setErr_fpb (s : State) (c : ErrCode) :
    (s.setErr c).fpb = s.fpb := rfl
@[simp] theorem State.setErr_fpbActive (s : State) (c : ErrCode) :
    (s.setErr c).fpbActive = s.fpbActive := rfl
@[simp] theorem State.setErr_length (s : State) (c : ErrCode) :
    (s.setErr c).length = s.length := rfl
@[simp] theorem State.setErr_phaseL (s : State) (c : ErrCode) :
    (s.setErr c).phaseL = s.phaseL := rfl
@[simp] theorem State.setErr_phaseR (s : State) (c : ErrCode) :
    (s.setErr c).phaseR = s.phaseR := rfl
@[simp] theorem State.setErr_lut (s : State) (c : ErrCode) :
    (s.setErr c).lut = s.lut := rfl
@[simp] theorem State.setErr_readData (s : State) (c : ErrCode) :
    (s.setErr c).readData = s.readData := rfl
@[simp] theorem State.setErr_framesOut (s : State) (c : ErrCode) :
    (s.setErr c).framesOut = s.framesOut := rfl
@[simp] theorem State.setErr_bufferResult (s : State) (c : ErrCode) :
    (s.setErr c).bufferResult = s.bufferResult := rfl
@[simp] theorem State.setErr_pending (s : State) (c : ErrCode) :
    (s.setErr c).pending = s.pending := rfl
@[simp] theorem State.setErr_nanDraws (s : State) (c : ErrCode) :
    (s.setErr c).nanDraws = s.nanDraws := rfl
@[simp] theorem State.setErr_lutEpoch (s : State) (c : ErrCode) :
    (s.setErr c).lutEpoch = s.lutEpoch := rfl
@[simp] theorem State.setErr_params (s : State) (c : ErrCode) :
    (s.setErr c).params = s.params := rfl

/-! `State.setRunning` -/

@[simp] theorem State.setRunning_running (s : State) (b : Bool) :
    (s.setRunning b).running = b := rfl
@[simp] theorem State.setRunning_tableValid (s : State) (b : Bool) :
    (s.setRunning b).tableValid = s.tableValid := rfl
@[simp] theorem State.setRunning_err (s : State) (b : Bool) :
    (s.setRunning b).err = s.err := rfl
@[simp] theorem State.setRunning_sampleRate (s : State) (b : Bool) :
    (s.setRunning b).sampleRate = s.sampleRate := rfl
@[simp] theorem State.setRunning_freq (s : State) (b : Bool) :
    (s.setRunning b).freq = s.freq := rfl
@[simp] theorem State.setRunning_fpb (s : State) (b : Bool) :
    (s.setRunning b).fpb = s.fpb := rfl
@[simp] theorem State.setRunning_fpbActive (s : State) (b : Bool) :
    (s.setRunning b).fpbActive = s.fpbActive := rfl
@[simp] theorem State.setRunning_length (s : State) (b : Bool) :
    (s.setRunning b).length = s.length := rfl
@[simp] theorem State.setRunning_phaseL (s : State) (b : Bool) :
    (s.setRunning b).phaseL = s.phaseL := rfl
@[simp] theorem State.setRunning_phaseR (s : State) (b : Bool) :
    (s.setRunning b).phaseR = s.phaseR := rfl
@[simp] theorem State.setRunning_lut (s : State) (b : Bool) :
    (s.setRunning b).lut = s.lut := rfl
@[simp] theorem State.setRunning_readData (s : State) (b : Bool) :
    (s.setRunning b).readData = s.readData := rfl
@[simp] theorem State.setRunning_framesOut (s : State) (b : Bool) :
    (s.setRunning b).framesOut = s.framesOut := rfl
@[simp] theorem State.setRunning_bufferResult (s : State) (b : Bool) :
    (s.setRunning b).bufferResult = s.bufferResult := rfl
@[simp] theorem State.setRunning_pending (s : State) (b : Bool) :
    (s.setRunning b).pending = s.pending := rfl
@[simp] theorem State.setRunning_nanDraws (s : State) (b : Bool) :
    (s.setRunning b).nanDraws = s.nanDraws := rfl
@[simp] theorem State.setRunning_lutEpoch (s : State) (b : Bool) :
    (s.setRunning b).lutEpoch = s.lutEpoch := rfl
@[simp] theorem State.setRunning_params (s : State) (b : Bool) :
    (s.setRunning b).params = s.params := rfl

/-! `State.setPhases` -/

@[simp] theorem State.setPhases_running (s : State) (l r : Word) :
    (s.setPhases l r).running = s.running := rfl
@[simp] theorem State.setPhases_tableValid (s : State) (l r : Word) :
    (s.setPhases l r).tableValid = s.tableValid := rfl
@[simp] theorem State.setPhases_err (s : State) (l r : Word) :
    (s.setPhases l r).err = s.err := rfl
@[simp] theorem State.setPhases_sampleRate (s : State) (l r : Word) :
    (s.setPhases l r).sampleRate = s.sampleRate := rfl
@[simp] theorem State.setPhases_freq (s : State) (l r : Word) :
    (s.setPhases l r).freq = s.freq := rfl
@[simp] theorem State.setPhases_fpb (s : State) (l r : Word) :
    (s.setPhases l r).fpb = s.fpb := rfl
@[simp] theorem State.setPhases_fpbActive (s : State) (l r : Word) :
    (s.setPhases l r).fpbActive = s.fpbActive := rfl
@[simp] theorem State.setPhases_length (s : State) (l r : Word) :
    (s.setPhases l r).length = s.length := rfl
@[simp] theorem State.setPhases_phaseL (s : State) (l r : Word) :
    (s.setPhases l r).phaseL = l := rfl
@[simp] theorem State.setPhases_phaseR (s : State) (l r : Word) :
    (s.setPhases l r).phaseR = r := rfl
@[simp] theorem State.setPhases_lut (s : State) (l r : Word) :
    (s.setPhases l r).lut = s.lut := rfl
@[simp] theorem State.setPhases_readData (s : State) (l r : Word) :
    (s.setPhases l r).readData = s.readData := rfl
@[simp] theorem State.setPhases_framesOut (s : State) (l r : Word) :
    (s.setPhases l r).framesOut = s.framesOut := rfl
@[simp] theorem State.setPhases_bufferResult (s : State) (l r : Word) :
    (s.setPhases l r).bufferResult = s.bufferResult := rfl
@[simp] theorem State.setPhases_pending (s : State) (l r : Word) :
    (s.setPhases l r).pending = s.pending := rfl
@[simp] theorem State.setPhases_nanDraws (s : State) (l r : Word) :
    (s.setPhases l r).nanDraws = s.nanDraws := rfl
@[simp] theorem State.setPhases_lutEpoch (s : State) (l r : Word) :
    (s.setPhases l r).lutEpoch = s.lutEpoch := rfl
@[simp] theorem State.setPhases_params (s : State) (l r : Word) :
    (s.setPhases l r).params = s.params := rfl

/-! `State.setFpbActive` -/

@[simp] theorem State.setFpbActive_running (s : State) (n : Word) :
    (s.setFpbActive n).running = s.running := rfl
@[simp] theorem State.setFpbActive_tableValid (s : State) (n : Word) :
    (s.setFpbActive n).tableValid = s.tableValid := rfl
@[simp] theorem State.setFpbActive_err (s : State) (n : Word) :
    (s.setFpbActive n).err = s.err := rfl
@[simp] theorem State.setFpbActive_sampleRate (s : State) (n : Word) :
    (s.setFpbActive n).sampleRate = s.sampleRate := rfl
@[simp] theorem State.setFpbActive_freq (s : State) (n : Word) :
    (s.setFpbActive n).freq = s.freq := rfl
@[simp] theorem State.setFpbActive_fpb (s : State) (n : Word) :
    (s.setFpbActive n).fpb = s.fpb := rfl
@[simp] theorem State.setFpbActive_fpbActive (s : State) (n : Word) :
    (s.setFpbActive n).fpbActive = n := rfl
@[simp] theorem State.setFpbActive_length (s : State) (n : Word) :
    (s.setFpbActive n).length = s.length := rfl
@[simp] theorem State.setFpbActive_phaseL (s : State) (n : Word) :
    (s.setFpbActive n).phaseL = s.phaseL := rfl
@[simp] theorem State.setFpbActive_phaseR (s : State) (n : Word) :
    (s.setFpbActive n).phaseR = s.phaseR := rfl
@[simp] theorem State.setFpbActive_lut (s : State) (n : Word) :
    (s.setFpbActive n).lut = s.lut := rfl
@[simp] theorem State.setFpbActive_readData (s : State) (n : Word) :
    (s.setFpbActive n).readData = s.readData := rfl
@[simp] theorem State.setFpbActive_framesOut (s : State) (n : Word) :
    (s.setFpbActive n).framesOut = s.framesOut := rfl
@[simp] theorem State.setFpbActive_bufferResult (s : State) (n : Word) :
    (s.setFpbActive n).bufferResult = s.bufferResult := rfl
@[simp] theorem State.setFpbActive_pending (s : State) (n : Word) :
    (s.setFpbActive n).pending = s.pending := rfl
@[simp] theorem State.setFpbActive_nanDraws (s : State) (n : Word) :
    (s.setFpbActive n).nanDraws = s.nanDraws := rfl
@[simp] theorem State.setFpbActive_lutEpoch (s : State) (n : Word) :
    (s.setFpbActive n).lutEpoch = s.lutEpoch := rfl
@[simp] theorem State.setFpbActive_params (s : State) (n : Word) :
    (s.setFpbActive n).params = s.params := rfl

/-! `State.loadTable` -/

@[simp] theorem State.loadTable_running (s : State) (L : Nat) :
    (s.loadTable L).running = s.running := rfl
@[simp] theorem State.loadTable_tableValid (s : State) (L : Nat) :
    (s.loadTable L).tableValid = true := rfl
@[simp] theorem State.loadTable_err (s : State) (L : Nat) :
    (s.loadTable L).err = s.err := rfl
@[simp] theorem State.loadTable_sampleRate (s : State) (L : Nat) :
    (s.loadTable L).sampleRate = s.sampleRate := rfl
@[simp] theorem State.loadTable_freq (s : State) (L : Nat) :
    (s.loadTable L).freq = s.freq := rfl
@[simp] theorem State.loadTable_fpb (s : State) (L : Nat) :
    (s.loadTable L).fpb = s.fpb := rfl
@[simp] theorem State.loadTable_fpbActive (s : State) (L : Nat) :
    (s.loadTable L).fpbActive = s.fpbActive := rfl
@[simp] theorem State.loadTable_length (s : State) (L : Nat) :
    (s.loadTable L).length = BitVec.ofNat 32 L := rfl
@[simp] theorem State.loadTable_phaseL (s : State) (L : Nat) :
    (s.loadTable L).phaseL = s.phaseL := rfl
@[simp] theorem State.loadTable_phaseR (s : State) (L : Nat) :
    (s.loadTable L).phaseR = s.phaseR := rfl
@[simp] theorem State.loadTable_lut (s : State) (L : Nat) :
    (s.loadTable L).lut = s.lut.writeTable L (sineRom s.params.sineRom L) := rfl
@[simp] theorem State.loadTable_readData (s : State) (L : Nat) :
    (s.loadTable L).readData = s.readData := rfl
@[simp] theorem State.loadTable_framesOut (s : State) (L : Nat) :
    (s.loadTable L).framesOut = s.framesOut := rfl
@[simp] theorem State.loadTable_bufferResult (s : State) (L : Nat) :
    (s.loadTable L).bufferResult = s.bufferResult := rfl
@[simp] theorem State.loadTable_pending (s : State) (L : Nat) :
    (s.loadTable L).pending = s.pending := rfl
@[simp] theorem State.loadTable_nanDraws (s : State) (L : Nat) :
    (s.loadTable L).nanDraws = s.nanDraws := rfl
@[simp] theorem State.loadTable_lutEpoch (s : State) (L : Nat) :
    (s.loadTable L).lutEpoch = s.lutEpoch := rfl
@[simp] theorem State.loadTable_params (s : State) (L : Nat) :
    (s.loadTable L).params = s.params := rfl

/-! `State.setReadData` -/

@[simp] theorem State.setReadData_running (s : State) (v : Word) :
    (s.setReadData v).running = s.running := rfl
@[simp] theorem State.setReadData_tableValid (s : State) (v : Word) :
    (s.setReadData v).tableValid = s.tableValid := rfl
@[simp] theorem State.setReadData_err (s : State) (v : Word) :
    (s.setReadData v).err = s.err := rfl
@[simp] theorem State.setReadData_sampleRate (s : State) (v : Word) :
    (s.setReadData v).sampleRate = s.sampleRate := rfl
@[simp] theorem State.setReadData_freq (s : State) (v : Word) :
    (s.setReadData v).freq = s.freq := rfl
@[simp] theorem State.setReadData_fpb (s : State) (v : Word) :
    (s.setReadData v).fpb = s.fpb := rfl
@[simp] theorem State.setReadData_fpbActive (s : State) (v : Word) :
    (s.setReadData v).fpbActive = s.fpbActive := rfl
@[simp] theorem State.setReadData_length (s : State) (v : Word) :
    (s.setReadData v).length = s.length := rfl
@[simp] theorem State.setReadData_phaseL (s : State) (v : Word) :
    (s.setReadData v).phaseL = s.phaseL := rfl
@[simp] theorem State.setReadData_phaseR (s : State) (v : Word) :
    (s.setReadData v).phaseR = s.phaseR := rfl
@[simp] theorem State.setReadData_lut (s : State) (v : Word) :
    (s.setReadData v).lut = s.lut := rfl
@[simp] theorem State.setReadData_readData (s : State) (v : Word) :
    (s.setReadData v).readData = some v := rfl
@[simp] theorem State.setReadData_framesOut (s : State) (v : Word) :
    (s.setReadData v).framesOut = s.framesOut := rfl
@[simp] theorem State.setReadData_bufferResult (s : State) (v : Word) :
    (s.setReadData v).bufferResult = s.bufferResult := rfl
@[simp] theorem State.setReadData_pending (s : State) (v : Word) :
    (s.setReadData v).pending = s.pending := rfl
@[simp] theorem State.setReadData_nanDraws (s : State) (v : Word) :
    (s.setReadData v).nanDraws = s.nanDraws := rfl
@[simp] theorem State.setReadData_lutEpoch (s : State) (v : Word) :
    (s.setReadData v).lutEpoch = s.lutEpoch := rfl
@[simp] theorem State.setReadData_params (s : State) (v : Word) :
    (s.setReadData v).params = s.params := rfl

/-! `State.openOutput` -/

@[simp] theorem State.openOutput_running (s : State) :
    s.openOutput.running = s.running := rfl
@[simp] theorem State.openOutput_tableValid (s : State) :
    s.openOutput.tableValid = s.tableValid := rfl
@[simp] theorem State.openOutput_err (s : State) :
    s.openOutput.err = s.err := rfl
@[simp] theorem State.openOutput_sampleRate (s : State) :
    s.openOutput.sampleRate = s.sampleRate := rfl
@[simp] theorem State.openOutput_freq (s : State) :
    s.openOutput.freq = s.freq := rfl
@[simp] theorem State.openOutput_fpb (s : State) :
    s.openOutput.fpb = s.fpb := rfl
@[simp] theorem State.openOutput_fpbActive (s : State) :
    s.openOutput.fpbActive = s.fpbActive := rfl
@[simp] theorem State.openOutput_length (s : State) :
    s.openOutput.length = s.length := rfl
@[simp] theorem State.openOutput_phaseL (s : State) :
    s.openOutput.phaseL = s.phaseL := rfl
@[simp] theorem State.openOutput_phaseR (s : State) :
    s.openOutput.phaseR = s.phaseR := rfl
@[simp] theorem State.openOutput_lut (s : State) :
    s.openOutput.lut = s.lut := rfl
@[simp] theorem State.openOutput_readData (s : State) :
    s.openOutput.readData = s.readData := rfl
@[simp] theorem State.openOutput_framesOut (s : State) :
    s.openOutput.framesOut = [] := rfl
@[simp] theorem State.openOutput_bufferResult (s : State) :
    s.openOutput.bufferResult = none := rfl
@[simp] theorem State.openOutput_pending (s : State) :
    s.openOutput.pending = s.pending := rfl
@[simp] theorem State.openOutput_nanDraws (s : State) :
    s.openOutput.nanDraws = s.nanDraws := rfl
@[simp] theorem State.openOutput_lutEpoch (s : State) :
    s.openOutput.lutEpoch = s.lutEpoch := rfl
@[simp] theorem State.openOutput_params (s : State) :
    s.openOutput.params = s.params := rfl

/-! `State.emitFrame` -/

@[simp] theorem State.emitFrame_running (s : State) (f : Frame) :
    (s.emitFrame f).running = s.running := rfl
@[simp] theorem State.emitFrame_tableValid (s : State) (f : Frame) :
    (s.emitFrame f).tableValid = s.tableValid := rfl
@[simp] theorem State.emitFrame_err (s : State) (f : Frame) :
    (s.emitFrame f).err = s.err := rfl
@[simp] theorem State.emitFrame_sampleRate (s : State) (f : Frame) :
    (s.emitFrame f).sampleRate = s.sampleRate := rfl
@[simp] theorem State.emitFrame_freq (s : State) (f : Frame) :
    (s.emitFrame f).freq = s.freq := rfl
@[simp] theorem State.emitFrame_fpb (s : State) (f : Frame) :
    (s.emitFrame f).fpb = s.fpb := rfl
@[simp] theorem State.emitFrame_fpbActive (s : State) (f : Frame) :
    (s.emitFrame f).fpbActive = s.fpbActive := rfl
@[simp] theorem State.emitFrame_length (s : State) (f : Frame) :
    (s.emitFrame f).length = s.length := rfl
@[simp] theorem State.emitFrame_phaseL (s : State) (f : Frame) :
    (s.emitFrame f).phaseL = s.phaseL := rfl
@[simp] theorem State.emitFrame_phaseR (s : State) (f : Frame) :
    (s.emitFrame f).phaseR = s.phaseR := rfl
@[simp] theorem State.emitFrame_lut (s : State) (f : Frame) :
    (s.emitFrame f).lut = s.lut := rfl
@[simp] theorem State.emitFrame_readData (s : State) (f : Frame) :
    (s.emitFrame f).readData = s.readData := rfl
@[simp] theorem State.emitFrame_framesOut (s : State) (f : Frame) :
    (s.emitFrame f).framesOut = s.framesOut ++ [f] := rfl
@[simp] theorem State.emitFrame_bufferResult (s : State) (f : Frame) :
    (s.emitFrame f).bufferResult = s.bufferResult := rfl
@[simp] theorem State.emitFrame_pending (s : State) (f : Frame) :
    (s.emitFrame f).pending = s.pending := rfl
@[simp] theorem State.emitFrame_nanDraws (s : State) (f : Frame) :
    (s.emitFrame f).nanDraws = s.nanDraws := rfl
@[simp] theorem State.emitFrame_lutEpoch (s : State) (f : Frame) :
    (s.emitFrame f).lutEpoch = s.lutEpoch := rfl
@[simp] theorem State.emitFrame_params (s : State) (f : Frame) :
    (s.emitFrame f).params = s.params := rfl

/-! `State.setBufferResult` -/

@[simp] theorem State.setBufferResult_running (s : State) (code : Word) :
    (s.setBufferResult code).running = s.running := rfl
@[simp] theorem State.setBufferResult_tableValid (s : State) (code : Word) :
    (s.setBufferResult code).tableValid = s.tableValid := rfl
@[simp] theorem State.setBufferResult_err (s : State) (code : Word) :
    (s.setBufferResult code).err = s.err := rfl
@[simp] theorem State.setBufferResult_sampleRate (s : State) (code : Word) :
    (s.setBufferResult code).sampleRate = s.sampleRate := rfl
@[simp] theorem State.setBufferResult_freq (s : State) (code : Word) :
    (s.setBufferResult code).freq = s.freq := rfl
@[simp] theorem State.setBufferResult_fpb (s : State) (code : Word) :
    (s.setBufferResult code).fpb = s.fpb := rfl
@[simp] theorem State.setBufferResult_fpbActive (s : State) (code : Word) :
    (s.setBufferResult code).fpbActive = s.fpbActive := rfl
@[simp] theorem State.setBufferResult_length (s : State) (code : Word) :
    (s.setBufferResult code).length = s.length := rfl
@[simp] theorem State.setBufferResult_phaseL (s : State) (code : Word) :
    (s.setBufferResult code).phaseL = s.phaseL := rfl
@[simp] theorem State.setBufferResult_phaseR (s : State) (code : Word) :
    (s.setBufferResult code).phaseR = s.phaseR := rfl
@[simp] theorem State.setBufferResult_lut (s : State) (code : Word) :
    (s.setBufferResult code).lut = s.lut := rfl
@[simp] theorem State.setBufferResult_readData (s : State) (code : Word) :
    (s.setBufferResult code).readData = s.readData := rfl
@[simp] theorem State.setBufferResult_framesOut (s : State) (code : Word) :
    (s.setBufferResult code).framesOut = s.framesOut := rfl
@[simp] theorem State.setBufferResult_bufferResult (s : State) (code : Word) :
    (s.setBufferResult code).bufferResult = some code := rfl
@[simp] theorem State.setBufferResult_pending (s : State) (code : Word) :
    (s.setBufferResult code).pending = s.pending := rfl
@[simp] theorem State.setBufferResult_nanDraws (s : State) (code : Word) :
    (s.setBufferResult code).nanDraws = s.nanDraws := rfl
@[simp] theorem State.setBufferResult_lutEpoch (s : State) (code : Word) :
    (s.setBufferResult code).lutEpoch = s.lutEpoch := rfl
@[simp] theorem State.setBufferResult_params (s : State) (code : Word) :
    (s.setBufferResult code).params = s.params := rfl

/-! `State.setPending` -/

@[simp] theorem State.setPending_running (s : State) (as : List Arrival) :
    (s.setPending as).running = s.running := rfl
@[simp] theorem State.setPending_tableValid (s : State) (as : List Arrival) :
    (s.setPending as).tableValid = s.tableValid := rfl
@[simp] theorem State.setPending_err (s : State) (as : List Arrival) :
    (s.setPending as).err = s.err := rfl
@[simp] theorem State.setPending_sampleRate (s : State) (as : List Arrival) :
    (s.setPending as).sampleRate = s.sampleRate := rfl
@[simp] theorem State.setPending_freq (s : State) (as : List Arrival) :
    (s.setPending as).freq = s.freq := rfl
@[simp] theorem State.setPending_fpb (s : State) (as : List Arrival) :
    (s.setPending as).fpb = s.fpb := rfl
@[simp] theorem State.setPending_fpbActive (s : State) (as : List Arrival) :
    (s.setPending as).fpbActive = s.fpbActive := rfl
@[simp] theorem State.setPending_length (s : State) (as : List Arrival) :
    (s.setPending as).length = s.length := rfl
@[simp] theorem State.setPending_phaseL (s : State) (as : List Arrival) :
    (s.setPending as).phaseL = s.phaseL := rfl
@[simp] theorem State.setPending_phaseR (s : State) (as : List Arrival) :
    (s.setPending as).phaseR = s.phaseR := rfl
@[simp] theorem State.setPending_lut (s : State) (as : List Arrival) :
    (s.setPending as).lut = s.lut := rfl
@[simp] theorem State.setPending_readData (s : State) (as : List Arrival) :
    (s.setPending as).readData = s.readData := rfl
@[simp] theorem State.setPending_framesOut (s : State) (as : List Arrival) :
    (s.setPending as).framesOut = s.framesOut := rfl
@[simp] theorem State.setPending_bufferResult (s : State) (as : List Arrival) :
    (s.setPending as).bufferResult = s.bufferResult := rfl
@[simp] theorem State.setPending_pending (s : State) (as : List Arrival) :
    (s.setPending as).pending = as := rfl
@[simp] theorem State.setPending_nanDraws (s : State) (as : List Arrival) :
    (s.setPending as).nanDraws = s.nanDraws := rfl
@[simp] theorem State.setPending_lutEpoch (s : State) (as : List Arrival) :
    (s.setPending as).lutEpoch = s.lutEpoch := rfl
@[simp] theorem State.setPending_params (s : State) (as : List Arrival) :
    (s.setPending as).params = s.params := rfl

/-! `State.takeDraw` -/

@[simp] theorem State.takeDraw_running (s : State) :
    s.takeDraw.running = s.running := rfl
@[simp] theorem State.takeDraw_tableValid (s : State) :
    s.takeDraw.tableValid = s.tableValid := rfl
@[simp] theorem State.takeDraw_err (s : State) :
    s.takeDraw.err = s.err := rfl
@[simp] theorem State.takeDraw_sampleRate (s : State) :
    s.takeDraw.sampleRate = s.sampleRate := rfl
@[simp] theorem State.takeDraw_freq (s : State) :
    s.takeDraw.freq = s.freq := rfl
@[simp] theorem State.takeDraw_fpb (s : State) :
    s.takeDraw.fpb = s.fpb := rfl
@[simp] theorem State.takeDraw_fpbActive (s : State) :
    s.takeDraw.fpbActive = s.fpbActive := rfl
@[simp] theorem State.takeDraw_length (s : State) :
    s.takeDraw.length = s.length := rfl
@[simp] theorem State.takeDraw_phaseL (s : State) :
    s.takeDraw.phaseL = s.phaseL := rfl
@[simp] theorem State.takeDraw_phaseR (s : State) :
    s.takeDraw.phaseR = s.phaseR := rfl
@[simp] theorem State.takeDraw_lut (s : State) :
    s.takeDraw.lut = s.lut := rfl
@[simp] theorem State.takeDraw_readData (s : State) :
    s.takeDraw.readData = s.readData := rfl
@[simp] theorem State.takeDraw_framesOut (s : State) :
    s.takeDraw.framesOut = s.framesOut := rfl
@[simp] theorem State.takeDraw_bufferResult (s : State) :
    s.takeDraw.bufferResult = s.bufferResult := rfl
@[simp] theorem State.takeDraw_pending (s : State) :
    s.takeDraw.pending = s.pending := rfl
@[simp] theorem State.takeDraw_nanDraws (s : State) :
    s.takeDraw.nanDraws = s.nanDraws + 1 := rfl
@[simp] theorem State.takeDraw_lutEpoch (s : State) :
    s.takeDraw.lutEpoch = s.lutEpoch := rfl
@[simp] theorem State.takeDraw_params (s : State) :
    s.takeDraw.params = s.params := rfl

/-! `State.setConfig` -/

@[simp] theorem State.setConfig_running (s : State) (r : ConfigReg) (v : Word) :
    (s.setConfig r v).running = s.running := by cases r <;> rfl
@[simp] theorem State.setConfig_tableValid (s : State) (r : ConfigReg) (v : Word) :
    (s.setConfig r v).tableValid = s.tableValid := by cases r <;> rfl
@[simp] theorem State.setConfig_err (s : State) (r : ConfigReg) (v : Word) :
    (s.setConfig r v).err = s.err := by cases r <;> rfl
@[simp] theorem State.setConfig_sampleRate (s : State) (r : ConfigReg) (v : Word) :
    (s.setConfig r v).sampleRate = if r = .sampleRate then v else s.sampleRate := by cases r <;> rfl
@[simp] theorem State.setConfig_freq (s : State) (r : ConfigReg) (v : Word) :
    (s.setConfig r v).freq =
      if r = .freqLo then cat 64 (s.freq.extractLsb' 32 32) v
      else if r = .freqHi then cat 64 v (s.freq.extractLsb' 0 32) else s.freq := by cases r <;> rfl
@[simp] theorem State.setConfig_fpb (s : State) (r : ConfigReg) (v : Word) :
    (s.setConfig r v).fpb = if r = .fpb then v else s.fpb := by cases r <;> rfl
@[simp] theorem State.setConfig_fpbActive (s : State) (r : ConfigReg) (v : Word) :
    (s.setConfig r v).fpbActive = s.fpbActive := by cases r <;> rfl
@[simp] theorem State.setConfig_length (s : State) (r : ConfigReg) (v : Word) :
    (s.setConfig r v).length = s.length := by cases r <;> rfl
@[simp] theorem State.setConfig_phaseL (s : State) (r : ConfigReg) (v : Word) :
    (s.setConfig r v).phaseL = s.phaseL := by cases r <;> rfl
@[simp] theorem State.setConfig_phaseR (s : State) (r : ConfigReg) (v : Word) :
    (s.setConfig r v).phaseR = s.phaseR := by cases r <;> rfl
@[simp] theorem State.setConfig_lut (s : State) (r : ConfigReg) (v : Word) :
    (s.setConfig r v).lut = s.lut := by cases r <;> rfl
@[simp] theorem State.setConfig_readData (s : State) (r : ConfigReg) (v : Word) :
    (s.setConfig r v).readData = s.readData := by cases r <;> rfl
@[simp] theorem State.setConfig_framesOut (s : State) (r : ConfigReg) (v : Word) :
    (s.setConfig r v).framesOut = s.framesOut := by cases r <;> rfl
@[simp] theorem State.setConfig_bufferResult (s : State) (r : ConfigReg) (v : Word) :
    (s.setConfig r v).bufferResult = s.bufferResult := by cases r <;> rfl
@[simp] theorem State.setConfig_pending (s : State) (r : ConfigReg) (v : Word) :
    (s.setConfig r v).pending = s.pending := by cases r <;> rfl
@[simp] theorem State.setConfig_nanDraws (s : State) (r : ConfigReg) (v : Word) :
    (s.setConfig r v).nanDraws = s.nanDraws := by cases r <;> rfl
@[simp] theorem State.setConfig_lutEpoch (s : State) (r : ConfigReg) (v : Word) :
    (s.setConfig r v).lutEpoch = s.lutEpoch := by cases r <;> rfl
@[simp] theorem State.setConfig_params (s : State) (r : ConfigReg) (v : Word) :
    (s.setConfig r v).params = s.params := by cases r <;> rfl

/-! `State.performReset` -/

@[simp] theorem State.performReset_running (s : State) :
    s.performReset.running = State.reset.running := rfl
@[simp] theorem State.performReset_tableValid (s : State) :
    s.performReset.tableValid = State.reset.tableValid := rfl
@[simp] theorem State.performReset_err (s : State) :
    s.performReset.err = State.reset.err := rfl
@[simp] theorem State.performReset_sampleRate (s : State) :
    s.performReset.sampleRate = State.reset.sampleRate := rfl
@[simp] theorem State.performReset_freq (s : State) :
    s.performReset.freq = State.reset.freq := rfl
@[simp] theorem State.performReset_fpb (s : State) :
    s.performReset.fpb = State.reset.fpb := rfl
@[simp] theorem State.performReset_fpbActive (s : State) :
    s.performReset.fpbActive = State.reset.fpbActive := rfl
@[simp] theorem State.performReset_length (s : State) :
    s.performReset.length = State.reset.length := rfl
@[simp] theorem State.performReset_phaseL (s : State) :
    s.performReset.phaseL = State.reset.phaseL := rfl
@[simp] theorem State.performReset_phaseR (s : State) :
    s.performReset.phaseR = State.reset.phaseR := rfl
@[simp] theorem State.performReset_lut (s : State) :
    s.performReset.lut = State.reset.lut := rfl
@[simp] theorem State.performReset_readData (s : State) :
    s.performReset.readData = State.reset.readData := rfl
@[simp] theorem State.performReset_framesOut (s : State) :
    s.performReset.framesOut = State.reset.framesOut := rfl
@[simp] theorem State.performReset_bufferResult (s : State) :
    s.performReset.bufferResult = State.reset.bufferResult := rfl
@[simp] theorem State.performReset_pending (s : State) :
    s.performReset.pending = s.pending := rfl
@[simp] theorem State.performReset_nanDraws (s : State) :
    s.performReset.nanDraws = s.nanDraws := rfl
@[simp] theorem State.performReset_lutEpoch (s : State) :
    s.performReset.lutEpoch = s.lutEpoch + 1 := rfl
@[simp] theorem State.performReset_params (s : State) :
    s.performReset.params = s.params := rfl

/-! Taking an agent step and putting it back. -/

@[simp] theorem State.setPending_setPending (s : State) (as bs : List Arrival) :
    (s.setPending as).setPending bs = s.setPending bs := rfl
@[simp] theorem State.setPending_self (s : State) : s.setPending s.pending = s := rfl

end Sys2Proof.Machine
end

