-- ==== Sys2Proof/Laws/Ops.lean ====
section
/-! SUPPORT. What each shared operation can do, once: the phase advance, a sample's product, FRAME's
pseudocode and its loop. -/

namespace Sys2Proof.Machine

/-- With `p < L` the advance is `(p + 1) mod L` (41_modulation_engine.md R123). -/
theorem advancePhase_toNat {p L : Word} (h : p.toNat < L.toNat) :
    (advancePhase p L).toNat = (p.toNat + 1) % L.toNat := by
  have hL := L.isLt
  unfold advancePhase
  split
  · have : p.toNat + 1 = L.toNat := by omega
    simp [this]
  · have : p.toNat + 1 < L.toNat := by omega
    rw [Nat.mod_eq_of_lt this, BitVec.toNat_ofNat, Nat.mod_eq_of_lt (by omega)]

theorem advancePhase_lt {p L : Word} (h : p.toNat < L.toNat) :
    (advancePhase p L).toNat < L.toNat := by
  rw [advancePhase_toNat h]
  exact Nat.mod_lt _ (by omega)

/-- A product and the state it leaves: only the draw count can change. -/
theorem State.mulSample_spec (s : State) (a b : Sample) :
    ProductOf a b (s.mulSample a b).1 ∧
    ∃ d, (s.mulSample a b).2 = { s with nanDraws := d } := by
  unfold State.mulSample ProductOf
  cases h : f32mul a b with
  | some r => exact ⟨rfl, s.nanDraws, rfl⟩
  | none => exact ⟨isQuietNaN_quietNaN _, s.nanDraws + 1, rfl⟩

/-- A product that is no NaN takes no draw. -/
theorem State.mulSample_of_some (s : State) {a b r : Sample} (h : f32mul a b = some r) :
    s.mulSample a b = (r, s) := by
  simp [State.mulSample, h]

/-- A product that is a NaN takes the next draw. -/
theorem State.mulSample_of_none (s : State) {a b : Sample} (h : f32mul a b = none) :
    s.mulSample a b = (quietNaN (Config.nanDraw s.nanDraws), s.takeDraw) := by
  simp [State.mulSample, h]

@[simp] theorem State.mulSample_framesOut (s : State) (a b : Sample) :
    (s.mulSample a b).2.framesOut = s.framesOut := by
  unfold State.mulSample
  split <;> rfl

/-- FRAME faults exactly when a phase is out of range (41_modulation_engine.md R121). -/
theorem State.modulate_fault {s : State} {f : Frame}
    (h : ¬ (s.phaseL.toNat < s.length.toNat ∧ s.phaseR.toNat < s.length.toNat)) :
    s.modulate f = .fault .realTimeFault := by
  simp [State.modulate, h]

/-- FRAME with both phases in range: one frame out, both phases advanced, and nothing else but draws. -/
theorem State.modulate_spec {s : State} (f : Frame)
    (h : s.phaseL.toNat < s.length.toNat ∧ s.phaseR.toNat < s.length.toNat) :
    ∃ o d, s.modulate f = .next { s with
        framesOut := s.framesOut ++ [o]
        phaseL := advancePhase s.phaseL s.length
        phaseR := advancePhase s.phaseR s.length
        nanDraws := d } ∧
      ProductOf f.left (s.lutEntry s.phaseL.toNat) o.left ∧
      ProductOf f.right (s.lutEntry s.phaseR.toNat) o.right := by
  obtain ⟨hp1, d1, h1⟩ := s.mulSample_spec f.left (s.lutEntry s.phaseL.toNat)
  obtain ⟨hp2, d2, h2⟩ := ({ s with nanDraws := d1 } : State).mulSample_spec f.right
    (s.lutEntry s.phaseR.toNat)
  refine ⟨⟨_, _⟩, d2, ?_, hp1, hp2⟩
  unfold State.modulate
  rw [if_pos h]
  simp only [h1, h2]
  rfl

/-- The LUT entry a frame reads does not depend on what FRAME writes. -/
theorem State.lutEntry_congr {s t : State} (h : t.lut = s.lut) (he : t.lutEpoch = s.lutEpoch) (i : Nat) :
    t.lutEntry i = s.lutEntry i := by
  simp [State.lutEntry, h, he]

/-- FRAME never refuses. -/
theorem State.modulate_ne_refused (s : State) (f : Frame) (e : Refusal) : s.modulate f ≠ .refused e := by
  by_cases h : s.phaseL.toNat < s.length.toNat ∧ s.phaseR.toNat < s.length.toNat
  · obtain ⟨o, d, ho, -⟩ := s.modulate_spec f h
    simp [ho]
  · simp [State.modulate_fault h]

/-- The frame loop from a state whose phases are in range: it completes, emits one frame for each, frame
k the product with the entries at the k-th phases, and leaves the phases `n` frames on, modulo LENGTH. -/
theorem modulateAll_spec (fs : List Frame) (s : State)
    (h : s.phaseL.toNat < s.length.toNat ∧ s.phaseR.toNat < s.length.toNat) :
    ∃ outs d, modulateAll fs s = .next { s with
        framesOut := s.framesOut ++ outs
        phaseL := BitVec.ofNat 32 ((s.phaseL.toNat + fs.length) % s.length.toNat)
        phaseR := BitVec.ofNat 32 ((s.phaseR.toNat + fs.length) % s.length.toNat)
        nanDraws := d } ∧
      outs.length = fs.length ∧
      ∀ k f o, fs[k]? = some f → outs[k]? = some o →
        ProductOf f.left (s.lutEntry ((s.phaseL.toNat + k) % s.length.toNat)) o.left ∧
        ProductOf f.right (s.lutEntry ((s.phaseR.toNat + k) % s.length.toNat)) o.right := by
  induction fs generalizing s with
  | nil =>
    refine ⟨[], s.nanDraws, ?_, rfl, by simp⟩
    simp [modulateAll, Nat.mod_eq_of_lt h.1, Nat.mod_eq_of_lt h.2]
  | cons f fs ih =>
    obtain ⟨o, d, ho, hpl, hpr⟩ := s.modulate_spec f h
    have hl := advancePhase_toNat h.1
    have hr := advancePhase_toNat h.2
    obtain ⟨outs, d', hall, hlen, hk⟩ := ih { s with
        framesOut := s.framesOut ++ [o]
        phaseL := advancePhase s.phaseL s.length
        phaseR := advancePhase s.phaseR s.length
        nanDraws := d } ⟨advancePhase_lt h.1, advancePhase_lt h.2⟩
    refine ⟨o :: outs, d', ?_, by simp [hlen], ?_⟩
    · simp only [modulateAll, ho, hall, hl, hr, Nat.mod_add_mod, List.length_cons, List.append_assoc,
        List.singleton_append]
      simp only [Nat.add_assoc, Nat.add_comm 1]
    · intro k g q hg hq
      cases k with
      | zero =>
        simp only [List.getElem?_cons_zero, Option.some.injEq] at hg hq
        subst hg hq
        simpa [Nat.mod_eq_of_lt h.1, Nat.mod_eq_of_lt h.2] using And.intro hpl hpr
      | succ k =>
        have := hk k g q (by simpa using hg) (by simpa using hq)
        simp only [hl, hr, Nat.mod_add_mod, Nat.add_assoc, Nat.add_comm 1] at this
        exact this

end Sys2Proof.Machine
end

