-- ==== Sys2Proof/Laws/Target.lean ====
section
/-! SUPPORT. Offset decoding in numbers: alignment, the window bit and the index (30_encoding.md R87). -/

namespace Sys2Proof.Machine

theorem Offset.aligned_iff (off : Offset) : Offset.aligned off = true ↔ off.toNat % 4 = 0 := by
  have h : (off.extractLsb' 0 2).toNat = off.toNat % 4 := by simp
  simp only [Offset.aligned, beq_iff_eq]
  constructor
  · intro ha; rw [← h, ha]; rfl
  · intro ha; exact BitVec.eq_of_toNat_eq (by rw [h, ha]; rfl)

theorem accessLegal_four (off : Offset) : accessLegal .four off = Offset.aligned off := by
  simp [accessLegal]

theorem Offset.index (off : Offset) : (off.extractLsb' 2 16).toNat = off.toNat / 4 % 65536 := by
  simp [BitVec.extractLsb'_toNat, Nat.shiftRight_eq_div_pow]

theorem Offset.window_iff (off : Offset) : off.getLsbD 18 = true ↔ 0x40000 ≤ off.toNat := by
  have h := off.isLt
  rw [BitVec.getLsbD, Nat.testBit, Nat.shiftRight_eq_div_pow]
  simp only [Nat.and_comm 1, Nat.and_one_is_mod, bne_iff_ne, ne_eq]
  omega

/-- The upper half of the offsets is the LUT window. -/
theorem target_lut {off : Offset} (h : 0x40000 ≤ off.toNat) :
    target off = .lutWindow ((off.toNat - 0x40000) / 4) := by
  have hlt := off.isLt
  simp only [target, (Offset.window_iff off).2 h, if_true, Offset.index, Target.lutWindow.injEq]
  omega

/-- The lower half is decoded by its index. -/
theorem target_register {off : Offset} (h : off.toNat < 0x40000) :
    target off =
      match off.toNat / 4 with
      | 0 => .cmd
      | 1 => .status
      | 2 => .config .sampleRate
      | 3 => .config .freqLo
      | 4 => .config .freqHi
      | 5 => .config .fpb
      | 6 => .length
      | 7 => .phaseL
      | 8 => .phaseR
      | 9 => .fpbActive
      | _ => .reserved := by
  have hw : off.getLsbD 18 = false := by
    rw [← Bool.not_eq_true, Offset.window_iff]
    omega
  have hi : off.toNat / 4 % 65536 = off.toNat / 4 := by omega
  unfold target
  dsimp only
  rw [hw, Offset.index, hi]
  rfl

/-- Only offset 0 is CMD, among the aligned ones. -/
theorem target_cmd {off : Offset} (ha : Offset.aligned off = true) (h : target off = .cmd) :
    off = 0x00000#19 := by
  rw [Offset.aligned_iff] at ha
  by_cases hw : 0x40000 ≤ off.toNat
  · rw [target_lut hw] at h; cases h
  · rw [target_register (by omega)] at h
    have h0 : off.toNat / 4 = 0 := by
      split at h <;> first | assumption | cases h
    exact BitVec.eq_of_toNat_eq (by simp; omega)

end Sys2Proof.Machine
end

