-- ==== Sys2Proof/Laws/Exec.lean ====
section
/-! SUPPORT. What each meaning can do, once; the provers cite these and unfold no meaning. -/

namespace Sys2Proof.Machine

/-- An aligned read completes, with the data of its target. -/
theorem execRd_aligned {off : Offset} (s : State) (h : Offset.aligned off = true) :
    execRd off s = .next (s.setReadData (s.readTarget (target off))) := by
  simp only [execRd, accessLegal_four, h, if_true]

/-- An aligned write is the write of its target. -/
theorem execWr_aligned {off : Offset} (v : Word) (s : State) (h : Offset.aligned off = true) :
    execWr off v s = writeTarget (target off) v s := by
  simp only [execWr, accessLegal_four, h, if_true]

/-- A host read that completes changes only its data output. -/
theorem execRd_next {off : Offset} {s t : State} (h : execRd off s = .next t) :
    ∃ v, t = s.setReadData v := by
  unfold execRd at h
  split at h
  · exact ⟨_, (Host.Outcome.next.inj h).symm⟩
  · cases h

/-- A host write that completes is aligned. -/
theorem execWr_next_aligned {off : Offset} {v : Word} {s t : State} (h : execWr off v s = .next t) :
    Offset.aligned off = true := by
  by_contra hc
  simp [execWr, accessLegal_four, hc, raiseAccessError] at h

theorem State.admits_iff (s : State) (n : Nat) :
    s.admits n = true ↔ s.running = true ∧ n = s.fpbActive.toNat := by
  simp [State.admits]

/-- A buffer that is not admitted has no step. -/
theorem execBuffer_refused {s : State} {fs : List Frame} (h : s.admits fs.length = false) :
    execBuffer fs s = .refused .bufferNotAdmitted := by
  simp [execBuffer, h]

/-- An admitted buffer is the frame loop from an empty output, then CONTINUE. -/
theorem execBuffer_admitted {s : State} {fs : List Frame} (h : s.admits fs.length = true) :
    execBuffer fs s =
      match modulateAll fs s.openOutput with
      | .next t => .next (t.setBufferResult continueCode)
      | .fault e => .fault e
      | .refused e => .refused e := by
  cases hm : modulateAll fs s.openOutput <;> simp [execBuffer, h, hm]

/-- BUILD either writes only ERR or loads a table of a legal length. -/
theorem execBuild_cases (s : State) :
    (∃ c, execBuild s = .next (s.setErr c)) ∨
    (s.running = false ∧ ∃ L, s.buildLength = .ok L ∧ 1 ≤ L ∧ L ≤ s.params.lutDepthMax ∧
      execBuild s = .next (((s.loadTable L).setPhases 0#32 0#32).setErr .ok)) := by
  unfold execBuild
  split
  · exact .inl ⟨.busy, rfl⟩
  · rename_i hr
    cases h : s.buildLength with
    | error c => exact .inl ⟨c, rfl⟩
    | ok L => exact .inr ⟨by simpa using hr, L, rfl, (tableLength_ok h).1, (tableLength_ok h).2, rfl⟩

/-- START's operand is legal exactly when `1 <= FPB <= FPB_MAX`. -/
theorem State.fpbLegal_iff (s : State) :
    s.fpbLegal = true ↔ 1 ≤ s.fpb.toNat ∧ s.fpb.toNat ≤ s.params.fpbMax := by
  have h : s.fpb = 0#32 ↔ s.fpb.toNat = 0 := by
    constructor
    · intro h; simp [h]
    · intro h; exact BitVec.eq_of_toNat_eq (by simpa using h)
  simp only [State.fpbLegal, Bool.and_eq_true, Bool.not_eq_true', beq_eq_false_iff_ne, ne_eq, h,
    decide_eq_true_eq]
  omega

/-- START either writes only ERR or opens the stream. -/
theorem execStart_cases (s : State) :
    (∃ c, execStart s = .next (s.setErr c)) ∨
    (s.running = false ∧ s.tableValid = true ∧ s.fpbLegal = true ∧
      execStart s = .next ((((s.setFpbActive s.fpb).setPhases 0#32 0#32).setRunning true).setErr .ok)) := by
  unfold execStart
  split
  · exact .inl ⟨.busy, rfl⟩
  · split
    · exact .inl ⟨.noTable, rfl⟩
    · split
      · exact .inl ⟨.badFpb, rfl⟩
      · exact .inr ⟨by simp_all, by simp_all, by simp_all, rfl⟩

/-- A command write performs one of the five commands. -/
theorem cmdWrite_cases (w : Word) (s : State) :
    (∃ rsv op, cmdWrite w s = execIllegalCmd rsv op s) ∨ cmdWrite w s = execNop s ∨
    (w = 1#32 ∧ cmdWrite w s = execBuild s) ∨ (w = 2#32 ∧ cmdWrite w s = execStart s) ∨
    (w = 3#32 ∧ cmdWrite w s = execStop s) := by
  have hw := cat_split (m := 4) (n := 28) w rfl
  unfold cmdWrite
  simp only
  split
  · exact .inl ⟨_, _, rfl⟩
  · rename_i hres
    have hrsv : w.extractLsb' 4 28 = 0#28 := by
      simp only [commandReserved, Bool.or_eq_true, not_or, bne_iff_ne, ne_eq, not_not] at hres
      exact hres.1
    have hop : ¬ 4#4 ≤ w.extractLsb' 0 4 := by
      simp only [commandReserved, Bool.or_eq_true, not_or, decide_eq_true_eq] at hres
      exact hres.2
    rw [hrsv] at hw
    split
    · exact .inr (.inl rfl)
    · split
      · rename_i h1
        rw [h1] at hw
        exact .inr (.inr (.inl ⟨by rw [← hw]; rfl, rfl⟩))
      · split
        · rename_i h2
          rw [h2] at hw
          exact .inr (.inr (.inr (.inl ⟨by rw [← hw]; rfl, rfl⟩)))
        · rename_i h0 h1 h2
          have h3 : w.extractLsb' 0 4 = 3#4 := by
            have hall : ∀ op : BitVec 4, ¬ 4#4 ≤ op → op ≠ 0#4 → op ≠ 1#4 → op ≠ 2#4 → op = 3#4 := by
              decide
            exact hall _ hop h0 h1 h2
          rw [h3] at hw
          exact .inr (.inr (.inr (.inr ⟨by rw [← hw]; rfl, rfl⟩)))

/-- A host write faults on alignment; else it changes nothing, or only ERR, or one configuration register
and ERR while stopped, or it is a successful BUILD, a successful START or a STOP. -/
theorem execWr_cases (off : Offset) (v : Word) (s : State) :
    execWr off v s = .fault (.accessError off) ∨
    execWr off v s = .next s ∨
    (∃ c, execWr off v s = .next (s.setErr c)) ∨
    (∃ r, s.running = false ∧ execWr off v s = .next ((s.setConfig r v).setErr .ok)) ∨
    (target off = .cmd ∧ v = 1#32 ∧ s.running = false ∧
      ∃ L, s.buildLength = .ok L ∧ 1 ≤ L ∧ L ≤ s.params.lutDepthMax ∧
        execWr off v s = .next (((s.loadTable L).setPhases 0#32 0#32).setErr .ok)) ∨
    (target off = .cmd ∧ v = 2#32 ∧ s.running = false ∧ s.tableValid = true ∧ s.fpbLegal = true ∧
      execWr off v s =
        .next ((((s.setFpbActive s.fpb).setPhases 0#32 0#32).setRunning true).setErr .ok)) ∨
    (target off = .cmd ∧ v = 3#32 ∧ execWr off v s = .next ((s.setRunning false).setErr .ok)) := by
  unfold execWr
  split
  · cases ht : target off with
    | cmd =>
      simp only [writeTarget]
      rcases cmdWrite_cases v s with ⟨rsv, op, h⟩ | h | ⟨hv, h⟩ | ⟨hv, h⟩ | ⟨hv, h⟩ <;> rw [h]
      · exact .inr (.inr (.inl ⟨.illegalCommand, rfl⟩))
      · exact .inr (.inr (.inl ⟨.ok, rfl⟩))
      · rcases execBuild_cases s with hb | ⟨hr, L, hb⟩
        · exact .inr (.inr (.inl hb))
        · exact .inr (.inr (.inr (.inr (.inl ⟨trivial, hv, hr, L, hb⟩))))
      · rcases execStart_cases s with hb | hb
        · exact .inr (.inr (.inl hb))
        · exact .inr (.inr (.inr (.inr (.inr (.inl ⟨trivial, hv, hb⟩)))))
      · exact .inr (.inr (.inr (.inr (.inr (.inr ⟨trivial, hv, rfl⟩)))))
    | config r =>
      simp only [writeTarget, cfgWrite]
      split
      · exact .inr (.inr (.inl ⟨.cfgLocked, rfl⟩))
      · exact .inr (.inr (.inr (.inl ⟨r, by simp_all, rfl⟩)))
    | lutWindow i => exact .inr (.inl rfl)
    | status => exact .inr (.inl rfl)
    | length => exact .inr (.inl rfl)
    | phaseL => exact .inr (.inl rfl)
    | phaseR => exact .inr (.inl rfl)
    | fpbActive => exact .inr (.inl rfl)
    | reserved => exact .inr (.inl rfl)
  · exact .inl rfl

end Sys2Proof.Machine
end

