-- ==== Sys2Proof/Laws/PerInstr.lean ====
section
/-! SUPPORT. One lemma per constructor of Instr: the encoding of an instruction is in the format of its
opcode-table row and has that format's width (30_encoding.md R80). -/

namespace Sys2Proof.Laws.EncodedFormat

/-- The width of an instruction's unit in bytes (30_encoding.md R80). -/
def width : Instr → Nat
  | .nop => 4
  | .build => 4
  | .start => 4
  | .stop => 4
  | .illegalCmd _ _ => 4
  | .rd _ => 8
  | .wr _ _ => 8
  | .accessError _ _ _ _ => 8
  | .frame _ _ => 8
  | .buffer frames => 8 * frames.length

def Statement (i : Instr) : Prop := (encode i).format = i.format ∧ (encode i).bytes.length = width i

theorem nop : Statement .nop := ⟨rfl, rfl⟩

theorem build : Statement .build := ⟨rfl, rfl⟩

theorem start : Statement .start := ⟨rfl, rfl⟩

theorem stop : Statement .stop := ⟨rfl, rfl⟩

theorem illegalCmd (rsv : BitVec 28) (op : BitVec 4) : Statement (.illegalCmd rsv op) := ⟨rfl, rfl⟩

theorem rd (off : Offset) : Statement (.rd off) := ⟨rfl, rfl⟩

theorem wr (off : Offset) (data : Word) : Statement (.wr off data) := ⟨rfl, rfl⟩

theorem accessError (dir : Direction) (size : AccessSize) (off : Offset) (data : Word) :
    Statement (.accessError dir size off data) := ⟨rfl, rfl⟩

theorem frame (left right : Sample) : Statement (.frame left right) := ⟨rfl, rfl⟩

theorem buffer (frames : List Frame) : Statement (.buffer frames) := by
  refine ⟨rfl, ?_⟩
  simp only [encode, Encoded.bytes, width]
  induction frames with
  | nil => rfl
  | cons f fs ih =>
    rw [List.map_cons, List.flatMap_cons, List.length_append, ih]
    simp only [bytesOfNat, List.length_cons, List.length_nil]
    omega

end Sys2Proof.Laws.EncodedFormat
end

