-- ==== Sys2Proof/Laws/SineRom.lean ====
section
/-! SUPPORT. SINE_ROM: what counting sign changes says of a cosine, which cosine the sine of an entry is, and
what an entry can be. -/

namespace Sys2Proof.Machine

/-- A positive value has sign 1, a negative one sign -1, with the parity of a half turn as the sign. -/
theorem sign_sin_level {φ : ℝ} {c : ℕ} (h₁ : c * Real.pi < φ) (h₂ : φ < (c + 1) * Real.pi) :
    0 < (-1 : ℝ) ^ c * Real.sin φ := by
  have h : Real.sin (φ - c * Real.pi) = (-1) ^ c * Real.sin φ := Real.sin_sub_nat_mul_pi φ c
  rw [← h]
  exact Real.sin_pos_of_pos_of_lt_pi (by linarith) (by linarith)

/-- The sign of an integer that a positive factor times `(-1)^c * v` measures. -/
theorem int_sign_eq_pow {a : ℤ} {c : ℕ} (h : 0 < (-1 : ℝ) ^ c * a) : a.sign = (-1) ^ c := by
  rcases neg_one_pow_eq_or ℝ c with hc | hc
  · have hz : ((-1 : ℤ)) ^ c = 1 := by exact_mod_cast hc
    rw [hc, one_mul] at h
    rw [hz, Int.sign_eq_one_iff_pos]
    exact_mod_cast h
  · have hz : ((-1 : ℤ)) ^ c = -1 := by exact_mod_cast hc
    rw [hc] at h
    rw [hz, Int.sign_eq_neg_one_iff_neg]
    have : (a : ℝ) < 0 := by linarith
    exact_mod_cast this

/-- Sign changes count half turns: `a` and `b` are positive multiples of the sines of `j + 1` and `j + 2`
times the angle, and `j` times the angle is in half turn `c`. -/
theorem signChanges_spec {x d : ℤ} {φ K : ℝ} (hφ₀ : 0 < φ) (hφ₁ : φ < Real.pi) (hd : 0 < d)
    (hx : (x : ℝ) = d * Real.cos φ) :
    ∀ (n j c : ℕ) (a b : ℤ), 0 < K → (j = 0 ∧ c = 0 ∨ c * Real.pi < j * φ) → j * φ ≤ (c + 1) * Real.pi →
      (a : ℝ) = K * (d : ℝ) ^ j * Real.sin ((j + 1) * φ) →
      (b : ℝ) = K * (d : ℝ) ^ (j + 1) * Real.sin ((j + 2) * φ) →
      (n + j = 0 ∨ (c + signChanges x d n ((-1) ^ c) a b : ℝ) * Real.pi < (n + j) * φ) ∧
      (n + j) * φ ≤ (c + signChanges x d n ((-1) ^ c) a b + 1 : ℝ) * Real.pi := by
  intro n
  induction n with
  | zero =>
    intro j c a b _ h₁ h₂ _ _
    simp only [signChanges, Nat.cast_zero, add_zero, zero_add]
    refine ⟨?_, h₂⟩
    rcases h₁ with ⟨hj, -⟩ | h₁
    · exact .inl hj
    · exact .inr h₁
  | succ n ih =>
    intro j c a b hK h₁ h₂ ha hb
    have hdj : 0 < K * (d : ℝ) ^ j := by have : (0 : ℝ) < d := by exact_mod_cast hd
                                         positivity
    have hnext : ((2 * x * b - d * d * a : ℤ) : ℝ) =
        K * (d : ℝ) ^ (j + 1 + 1) * Real.sin (((j + 1 : ℕ) + 2) * φ) := by
      have hs : Real.sin (((j : ℝ) + 3) * φ) =
          2 * Real.cos φ * Real.sin ((j + 2) * φ) - Real.sin ((j + 1) * φ) := by
        have e₁ : ((j : ℝ) + 3) * φ = (j + 2) * φ + φ := by ring
        have e₂ : ((j : ℝ) + 1) * φ = (j + 2) * φ - φ := by ring
        rw [e₁, e₂, Real.sin_add, Real.sin_sub]
        ring
      push_cast
      rw [ha, hb, hx, show (j : ℝ) + 1 + 2 = j + 3 by ring, hs]
      ring
    have hb' : (b : ℝ) = K * (d : ℝ) ^ (j + 1) * Real.sin (((j + 1 : ℕ) + 1) * φ) := by
      rw [hb]; push_cast; ring_nf
    have hstep : (j + 1 : ℝ) * φ < (c + 2) * Real.pi := by nlinarith
    have hlow : c * Real.pi < (j + 1 : ℝ) * φ := by
      rcases h₁ with ⟨rfl, rfl⟩ | h₁
      · simpa using hφ₀
      · nlinarith
    have hjn : (n + (j + 1 : ℕ) : ℝ) = (n + 1 : ℕ) + j := by push_cast; ring
    by_cases hle : (j + 1 : ℝ) * φ ≤ (c + 1) * Real.pi
    · have hcond : a = 0 ∨ a.sign = (-1) ^ c := by
        rcases hle.lt_or_eq with hlt | heq
        · right
          apply int_sign_eq_pow
          have := sign_sin_level hlow hlt
          rw [ha]
          calc 0 < (K * (d : ℝ) ^ j) * ((-1) ^ c * Real.sin ((j + 1) * φ)) := mul_pos hdj this
            _ = _ := by ring
        · left
          have hz : Real.sin ((j + 1) * φ) = 0 := by
            rw [heq]
            exact_mod_cast Real.sin_nat_mul_pi (c + 1)
          have : (a : ℝ) = 0 := by rw [ha, hz, mul_zero]
          exact_mod_cast this
      rw [signChanges, if_pos hcond]
      have := ih (j + 1) c b (2 * x * b - d * d * a) hK (.inr (by push_cast; exact hlow))
        (by push_cast; exact hle) hb' hnext
      rw [hjn] at this
      exact ⟨.inr (this.1.resolve_left (by omega)), this.2⟩
    · have hgt : ((c + 1 : ℕ) : ℝ) * Real.pi < (j + 1 : ℝ) * φ := by push_cast; linarith
      have hpos := sign_sin_level hgt (by push_cast; linarith)
      have hsign : a.sign = (-1) ^ (c + 1) := by
        apply int_sign_eq_pow
        rw [ha]
        calc 0 < (K * (d : ℝ) ^ j) * ((-1) ^ (c + 1) * Real.sin ((j + 1) * φ)) := mul_pos hdj hpos
          _ = _ := by ring
      have hcond : ¬ (a = 0 ∨ a.sign = (-1) ^ c) := by
        rintro (h0 | hs)
        · rw [h0, Int.sign_zero] at hsign
          exact absurd hsign (pow_ne_zero (c + 1) (by norm_num : (-1 : ℤ) ≠ 0)).symm
        · rw [hs, pow_succ] at hsign
          rcases neg_one_pow_eq_or ℤ c with hc | hc <;> simp [hc] at hsign
      rw [signChanges, if_neg hcond, hsign]
      have := ih (j + 1) (c + 1) b (2 * x * b - d * d * a) hK (.inr (by push_cast at hgt ⊢; exact hgt))
        (by push_cast; linarith) hb' hnext
      rw [hjn] at this
      have hlt := this.1.resolve_left (by omega)
      have hle' := this.2
      push_cast at hlt hle' ⊢
      exact ⟨.inr (by linarith), by linarith⟩

/-- The sign changes that `cosAbove` counts are the half turns that `n` times the angle has passed. -/
theorem signChanges_arccos {x d : ℤ} {n : ℕ} (hn : 0 < n) (hd : 0 < d) (h₁ : -d < x) (h₂ : x < d) :
    (signChanges x d n 1 1 (2 * x) : ℝ) * Real.pi < n * Real.arccos (x / d) ∧
    n * Real.arccos (x / d) ≤ (signChanges x d n 1 1 (2 * x) + 1 : ℝ) * Real.pi := by
  have hd' : (0 : ℝ) < d := by exact_mod_cast hd
  have hlo : (-1 : ℝ) < x / d := by
    rw [lt_div_iff₀ hd']
    have : (-d : ℝ) < x := by exact_mod_cast h₁
    linarith
  have hhi : (x / d : ℝ) < 1 := by
    rw [div_lt_one hd']
    exact_mod_cast h₂
  have hcos : Real.cos (Real.arccos (x / d)) = x / d := Real.cos_arccos hlo.le hhi.le
  have hx : (x : ℝ) = d * Real.cos (Real.arccos (x / d)) := by rw [hcos]; field_simp
  have hφ₀ : 0 < Real.arccos (x / d) := Real.arccos_pos.2 hhi
  have hφ₁ : Real.arccos (x / d) < Real.pi :=
    (Real.arccos_le_pi _).lt_of_ne (fun h => absurd (Real.arccos_eq_pi.1 h) (not_le.2 hlo))
  have hsin : 0 < Real.sin (Real.arccos (x / d)) := Real.sin_pos_of_pos_of_lt_pi hφ₀ hφ₁
  have := signChanges_spec (K := (Real.sin (Real.arccos (x / d)))⁻¹) hφ₀ hφ₁ hd hx n 0 0 1 (2 * x)
    (inv_pos.2 hsin) (.inl ⟨rfl, rfl⟩) (by simp [Real.pi_pos.le])
    (by simp [inv_mul_cancel₀ hsin.ne'])
    (by
      push_cast
      simp only [zero_add, pow_one, Real.sin_two_mul, hcos]
      field_simp)
  simp only [pow_zero, Nat.cast_zero, zero_add, add_zero] at this
  exact ⟨this.1.resolve_left hn.ne', this.2⟩

/-- `cosAbove` decides the comparison it is named after. -/
theorem cosAbove_iff {n k : ℕ} {x d : ℤ} (hn : 0 < n) (hk : k ≤ n) (hd : 0 < d) :
    cosAbove n k x d = true ↔ (x / d : ℝ) < Real.cos (k * Real.pi / n) := by
  have hn' : (0 : ℝ) < n := by exact_mod_cast hn
  have hd' : (0 : ℝ) < d := by exact_mod_cast hd
  have harg : k * Real.pi / n ∈ Set.Icc 0 Real.pi := by
    refine ⟨by positivity, ?_⟩
    rw [div_le_iff₀ hn', mul_comm Real.pi]
    exact mul_le_mul_of_nonneg_right (by exact_mod_cast hk) Real.pi_pos.le
  unfold cosAbove
  split
  · rename_i hle
    rw [decide_eq_true_eq]
    rcases hle.lt_or_eq with hlt | heq
    · have : (x / d : ℝ) < -1 := by
        rw [div_lt_iff₀ hd']
        have : (x : ℝ) < -d := by exact_mod_cast hlt
        linarith
      have := this.trans_le (Real.neg_one_le_cos (k * Real.pi / n))
      simp [hlt, this]
    · have hx : (x / d : ℝ) = Real.cos Real.pi := by
        rw [heq, Real.cos_pi]
        push_cast
        field_simp
      rw [hx, Real.strictAntiOn_cos.lt_iff_gt ⟨Real.pi_pos.le, le_rfl⟩ harg, div_lt_iff₀ hn',
        mul_comm Real.pi, mul_lt_mul_iff_left₀ Real.pi_pos, Nat.cast_lt]
      simp [heq]
  · rename_i hgt
    rw [decide_eq_true_eq]
    by_cases h₂ : x < d
    · obtain ⟨hl, hu⟩ := signChanges_arccos hn hd (not_le.1 hgt) h₂
      have hlo : (-1 : ℝ) ≤ x / d := by
        rw [le_div_iff₀ hd']
        have : (-d : ℝ) < x := by exact_mod_cast not_le.1 hgt
        linarith
      have hhi : (x / d : ℝ) ≤ 1 := by
        rw [div_le_one hd']
        exact_mod_cast h₂.le
      have hcmp : (x / d : ℝ) < Real.cos (k * Real.pi / n) ↔
          k * Real.pi / n < Real.arccos (x / d) := by
        conv_lhs => rw [← Real.cos_arccos hlo hhi]
        exact Real.strictAntiOn_cos.lt_iff_gt ⟨Real.arccos_nonneg _, Real.arccos_le_pi _⟩ harg
      rw [hcmp, div_lt_iff₀ hn', mul_comm (Real.arccos _)]
      simp only [h₂, true_and]
      constructor
      · intro hle
        have : (k : ℝ) ≤ signChanges x d n 1 1 (2 * x) := by exact_mod_cast hle
        nlinarith [Real.pi_pos]
      · intro hlt
        by_contra hgt'
        have : (signChanges x d n 1 1 (2 * x) + 1 : ℝ) ≤ k := by exact_mod_cast (not_le.1 hgt')
        nlinarith [Real.pi_pos]
    · have : (1 : ℝ) ≤ x / d := by
        rw [le_div_iff₀ hd', one_mul]
        exact_mod_cast (not_lt.1 h₂)
      have := (Real.cos_le_one (k * Real.pi / n)).trans this
      simp [h₂, this]

/-- The sine of entry i as a cosine of a whole number of steps of `pi / (2 * L)`. -/
theorem sin_eq_cos_sineAngle {L i : ℕ} (h : i < L) :
    Real.sin (2 * Real.pi * i / L) = Real.cos (sineAngle L i * Real.pi / (2 * L : ℕ)) := by
  have hL : (L : ℝ) ≠ 0 := by exact_mod_cast (by omega : L ≠ 0)
  unfold sineAngle
  split
  · rename_i h₁
    rw [← Real.cos_pi_div_two_sub]
    congr 1
    push_cast [Nat.cast_sub h₁]
    field_simp
    ring
  · split
    · rename_i h₁ h₂
      rw [← Real.cos_pi_div_two_sub, ← Real.cos_neg]
      congr 1
      push_cast [Nat.cast_sub (not_le.1 h₁).le]
      field_simp
      ring
    · rename_i h₁ h₂
      rw [← Real.cos_pi_div_two_sub, ← Real.cos_add_two_pi]
      congr 1
      push_cast [Nat.cast_sub (by omega : 4 * i ≤ 5 * L)]
      field_simp
      ring

theorem sineAngle_le {L i : ℕ} (h : i < L) : sineAngle L i ≤ 2 * L := by
  unfold sineAngle
  split
  · omega
  · split <;> omega

/-- What an entry of a SINE_ROM other than SINE_REF is: the free one where P0 to P2 allow it, else SINE_REF's. -/
theorem sineFree_cases (L i : ℕ) :
    (entryLegal L i (Config.sineRom L i) = true ∧ sineFree L i = Config.sineRom L i) ∨
    (entryLegal L i (Config.sineRom L i) = false ∧ sineFree L i = sineRef L i) := by
  cases h : entryLegal L i (Config.sineRom L i) <;> simp [sineFree, h]

/-- The three properties that `entryLegal` checks. -/
theorem entryLegal_iff (L i : ℕ) (v : Sample) :
    entryLegal L i v = true ↔
      (i = 0 → v = 0#32) ∧ binary32.mag v.toNat ≤ 0x3F800000 ∧ nearSine L i v = true := by
  simp only [entryLegal, Bool.and_eq_true, Bool.or_eq_true, bne_iff_ne, beq_iff_eq, decide_eq_true_eq,
    and_assoc]
  exact and_congr_left fun _ => by tauto

end Sys2Proof.Machine
end

