-- ==== Sys2Proof/Laws/Step.lean ====
section
/-! SUPPORT. What one step can do, and the four things it takes off the list. -/

namespace Sys2Proof.Machine

theorem step_idle {s : State} (h : s.pending = []) : step s = .next s := by
  simp [step, State.fetch, h]

theorem step_reset {s : State} {rest : List Arrival} (h : s.pending = .reset :: rest) :
    step s = .next (s.setPending rest).performReset := by
  simp [step, State.fetch, h]

theorem step_host {s : State} {w : DWord} {rest : List Arrival} (h : s.pending = .host w :: rest) :
    step s =
      match decode (.bus w) with
      | .ok i => exec i (s.setPending rest)
      | .error e => .refused (.undecodable e) := by
  simp only [step, State.fetch, h, fetched]
  cases decode (.bus w) <;> rfl

theorem step_stream {s : State} {ws : List DWord} {rest : List Arrival}
    (h : s.pending = .stream ws :: rest) :
    step s =
      match decode (.buffer ws) with
      | .ok i => exec i (s.setPending rest)
      | .error e => .refused (.undecodable e) := by
  simp only [step, State.fetch, h, fetched]
  cases decode (.buffer ws) <;> rfl

/-- The instructions a host access decodes to. -/
theorem decodeAccess_cases (dir : Direction) (z : AccessSize) (off : Offset) (v : Word) :
    decodeAccess dir z off v = .rd off ∨ decodeAccess dir z off v = .wr off v ∨
    ∃ d, decodeAccess dir z off v = .accessError dir z off d := by
  cases dir <;> simp only [decodeAccess] <;> split <;> simp_all

/-- A step that goes on: nothing to come and no change, a reset, a host read, a host write, or a buffer. -/
theorem step_next_cases {s t : State} (h : step s = .next t) :
    (s.pending = [] ∧ t = s) ∨
    (∃ rest, s.pending = .reset :: rest ∧ t = (s.setPending rest).performReset) ∨
    (∃ w rest off, s.pending = .host w :: rest ∧ decode (.bus w) = .ok (.rd off) ∧
      execRd off (s.setPending rest) = .next t) ∨
    (∃ w rest off v, s.pending = .host w :: rest ∧ decode (.bus w) = .ok (.wr off v) ∧
      execWr off v (s.setPending rest) = .next t) ∨
    (∃ ws rest fs, s.pending = .stream ws :: rest ∧ decode (.buffer ws) = .ok (.buffer fs) ∧
      execBuffer fs (s.setPending rest) = .next t) := by
  match hp : s.pending with
  | [] =>
    rw [step_idle hp] at h
    exact .inl ⟨rfl, by simpa using h.symm⟩
  | .reset :: rest =>
    rw [step_reset hp] at h
    exact .inr (.inl ⟨rest, rfl, by simpa using h.symm⟩)
  | .host w :: rest =>
    rw [step_host hp] at h
    simp only [decode, decodeBus] at h
    split at h
    · rename_i i hd
      split at hd
      · cases hd
      · split at hd
        · cases hd
        · rename_i z hz
          have hdec : decode (.bus w) = .ok i := by
            simp only [decode, decodeBus]
            rw [if_neg ‹_›, hz]
            exact hd
          simp only [Except.ok.injEq] at hd
          rcases decodeAccess_cases (if w.getLsbD 63 then .write else .read) z (w.extractLsb' 32 19)
            (w.extractLsb' 0 32) with hc | hc | ⟨d, hc⟩ <;> rw [hc] at hd <;> subst hd
          · exact .inr (.inr (.inl ⟨w, rest, _, rfl, hdec, h⟩))
          · exact .inr (.inr (.inr (.inl ⟨w, rest, _, _, rfl, hdec, h⟩)))
          · cases h
    · cases h
  | .stream ws :: rest =>
    rw [step_stream hp] at h
    split at h
    · rename_i i hd
      have hdec := hd
      simp only [decode, decodeBuffer] at hd
      split at hd
      · cases hd
      · split at hd
        · cases hd
        · simp only [Except.ok.injEq] at hd
          subst hd
          exact .inr (.inr (.inr (.inr ⟨ws, rest, _, rfl, hdec, h⟩)))
    · cases h

end Sys2Proof.Machine
end

