-- ==== Sys2Proof/Tests/Slice0.lean ====
section
/-! SUPPORT. Tests on the spec's own values (95_test_vectors.md, the corner cases of 40_table_builder.md
R110 and 41_modulation_engine.md R132), and a witness for every statement that has hypotheses. -/

namespace Sys2Proof.Tests

set_option Elab.async false

open Sys2Proof Sys2Proof.Machine

/-! ## Helpers -/

/-- The result is a next state with a property. -/
def nextIs (r : Result) (p : State → Bool) : Bool :=
  match r with
  | .next t => p t
  | .fault _ => false
  | .refused _ => false

theorem of_nextIs {r : Result} {p : State → Bool} (h : nextIs r p = true) :
    ∃ t, r = .next t ∧ p t = true := by
  cases r with
  | next t => exact ⟨t, rfl, h⟩
  | fault e => exact absurd h (by simp [nextIs])
  | refused e => exact absurd h (by simp [nextIs])

/-- The result is a fault with a given reason. -/
def faultIs (r : Result) (e : Fault) : Bool :=
  match r with
  | .next _ => false
  | .fault f => decide (f = e)
  | .refused _ => false

/-- The result is a refusal with a given reason. -/
def refusalIs (r : Result) (e : Refusal) : Bool :=
  match r with
  | .next _ => false
  | .fault _ => false
  | .refused f => decide (f = e)

/-- Stopped, with the four-point table of program P1, phases 0. -/
def fourPoint : State :=
  { State.reset with
    sampleRate := 4#32
    freq := 0x3FF0000000000000#64
    fpb := 3#32
    length := 4#32
    tableValid := true
    lut := [0x00000000#32, 0x3F800000#32, 0x250D3132#32, 0xBF800000#32] }

/-- The same, running with buffers of `n` frames, both phases at `p`. -/
def runningFour (n p : Word) : State :=
  { fourPoint with running := true, fpbActive := n, phaseL := p, phaseR := p }

/-- After reset, with other BUILD operands. -/
def operands (sr : Word) (f : DWord) : State := { State.reset with sampleRate := sr, freq := f }

/-- BUILD's length, 0 where it reports an error. -/
def lengthOf (sr : Word) (f : DWord) : Nat :=
  match tableLength 65536 sr f with
  | .ok L => L
  | .error _ => 0

/-- STATUS after BUILD from the reset state. -/
def statusAfterBuild (sr : Word) (f : DWord) (w : Word) : Bool :=
  nextIs (exec .build (operands sr f)) fun t => t.statusWord == w

/-! ## WellFormed: ill-formed terms, one for each check -/

theorem test_wf_no_illegal_command_is_build : (Instr.illegalCmd 0#28 1#4).wf = false := by decide
theorem test_wf_no_misaligned_rd : (Instr.rd 0x00002#19).wf = false := by decide
theorem test_wf_no_misaligned_wr : (Instr.wr 0x00003#19 0#32).wf = false := by decide
theorem test_wf_no_legal_access_error : (Instr.accessError .write .four 0x00004#19 0#32).wf = false := by
  decide
theorem test_wf_no_access_error_read_with_data :
    (Instr.accessError .read .one 0x00004#19 1#32).wf = false := by decide
theorem test_wf_no_empty_buffer : (Instr.buffer []).wf = false := by decide
theorem test_wf_no_buffer_of_2_pow_32 (fs : List Frame) (h : fs.length = 2 ^ 32) :
    (Instr.buffer fs).wf = false := by
  simp [Instr.wf, h]

/-! ## Decoding: words from 95_test_vectors.md, one for each row of the opcode table -/

theorem test_decode_nop : decodeTableWord 32 0x00000000 = some .nop := by decide +kernel
theorem test_decode_build : decodeTableWord 32 0x00000001 = some .build := by decide +kernel
theorem test_decode_start : decodeTableWord 32 0x00000002 = some .start := by decide +kernel
theorem test_decode_stop : decodeTableWord 32 0x00000003 = some .stop := by decide +kernel
/-- Reserved bits are checked first: 0x80000003 is no STOP. -/
theorem test_decode_illegal_cmd :
    decodeTableWord 32 0x80000003 = some (.illegalCmd 0x8000000#28 0x3#4) := by decide +kernel
theorem test_decode_illegal_op : decodeTableWord 32 0x00000004 = some (.illegalCmd 0#28 4#4) := by
  decide +kernel
/-- RDLUT 65535. -/
theorem test_decode_rd : decodeTableWord 64 0x0017FFFC00000000 = some (.rd 0x7FFFC#19) := by decide +kernel
/-- WR FPB, 128. -/
theorem test_decode_wr : decodeTableWord 64 0x8010001400000080 = some (.wr 0x00014#19 128#32) := by
  decide +kernel
/-- WR STATUS with SIZE = 1 (2 bytes). -/
theorem test_decode_access_error :
    decodeTableWord 64 0x80080004FFFFFFFF = some (.accessError .write .two 0x00004#19 0xFFFFFFFF#32) := by
  decide +kernel
/-- RD 0x00002, misaligned. -/
theorem test_decode_misaligned :
    decode (.bus 0x0010000200000000#64) = .ok (.accessError .read .four 0x00002#19 0#32) := by decide +kernel
/-- The left sample is the low half. -/
theorem test_decode_frame :
    decode (.frame 0xBF0000003F000000#64) = .ok (.frame 0x3F000000#32 0xBF000000#32) := by decide +kernel
/-- Frame 0 first: the buffer 0.5 -0.5; 1.0 1.0. -/
theorem test_decode_buffer :
    decode (.buffer [0xBF0000003F000000#64, 0x3F8000003F800000#64]) =
      .ok (.buffer [⟨0x3F000000#32, 0xBF000000#32⟩, ⟨0x3F800000#32, 0x3F800000#32⟩]) := by decide +kernel
/-- The listing word with SIZE = 4 spells no access, nor does one with RSVB set. -/
theorem test_decode_size_4 : decode (.bus 0x0020000400000000#64) = .error .spellsNoAccess := by
  decide +kernel
theorem test_decode_rsvb : decode (.bus 0x4010000400000000#64) = .error .spellsNoAccess := by
  decide +kernel

/-! ## Commands -/

/-- Row of 95_test_vectors.md: running, TV = 1: NOP gives STATUS 3. -/
theorem test_nop :
    nextIs (exec .nop { runningFour 3#32 1#32 with err := 3#4 })
      (fun t => t.statusWord == 3#32 && t.phaseL == 1#32) = true := by decide +kernel
/-- FPB = FPB_MAX starts, FPB_MAX + 1 does not. -/
theorem test_start_at_fpb_max :
    nextIs (exec .start { fourPoint with fpb := 4096#32, phaseL := 1#32, phaseR := 1#32 })
      (fun t => t.statusWord == 3#32 && t.fpbActive == 4096#32 && t.phaseR == 0#32) = true := by
  decide +kernel
theorem test_start_errors :
    nextIs (exec .start { fourPoint with fpb := 4097#32 }) (fun t => t.statusWord == 0x502#32) = true ∧
    nextIs (exec .start { State.reset with fpb := 0#32 }) (fun t => t.statusWord == 0x400#32) = true ∧
    nextIs (exec .start (runningFour 3#32 1#32))
      (fun t => t.statusWord == 0x303#32 && t.phaseL == 1#32) = true := by decide +kernel
/-- The phase at STOP is kept. -/
theorem test_stop :
    nextIs (exec .stop (runningFour 3#32 2#32)) (fun t => t.statusWord == 2#32 && t.phaseL == 2#32) = true := by
  decide +kernel
/-- `0x00000011` is no BUILD, and `0x80000003` no STOP. -/
theorem test_illegal_cmd :
    nextIs (exec (.wr 0x00000#19 0x00000011#32) State.reset) (fun t => t.statusWord == 0x600#32) = true ∧
    nextIs (exec (.wr 0x00000#19 0x80000003#32) (runningFour 3#32 0#32))
      (fun t => t.statusWord == 0x603#32) = true := by decide +kernel

/-! ## BUILD: rows of 95_test_vectors.md -/

/-- S1 and S2, the binary64 floors that differ from the exact ones, and the largest table. -/
theorem test_build_lengths :
    lengthOf 44100#32 0x403E000000000000#64 = 1470 ∧ lengthOf 44100#32 0x404E000000000000#64 = 735 ∧
    lengthOf 44100#32 0x3FE999999999999A#64 = 55125 ∧ lengthOf 44100#32 0x3FFAAAAAAAAAAAAB#64 = 26460 ∧
    lengthOf 48000#32 0x40405397829CBC15#64 = 1470 ∧ lengthOf 44100#32 0x40E5887FFFFFFFFF#64 = 1 ∧
    lengthOf 65536#32 0x3FF0000000000000#64 = 65536 ∧
    lengthOf 0xFFFFFFFF#32 0x40F0000000000000#64 = 65535 := by decide +kernel
theorem test_build_errors :
    statusAfterBuild 44100#32 0x8000000000000000#64 0x100#32 = true ∧
    statusAfterBuild 44100#32 0x7FF8000000000000#64 0x100#32 = true ∧
    statusAfterBuild 44100#32 0x7FF0000000000000#64 0x100#32 = true ∧
    statusAfterBuild 0#32 0x403E000000000000#64 0x100#32 = true ∧
    statusAfterBuild 44100#32 0x40E5888000000001#64 0x100#32 = true ∧
    statusAfterBuild 65537#32 0x3FF0000000000000#64 0x200#32 = true ∧
    statusAfterBuild 44100#32 0x0000000000000001#64 0x200#32 = true ∧
    nextIs (exec .build (runningFour 3#32 0#32)) (fun t => t.statusWord == 0x303#32) = true := by
  decide +kernel
/-- The table of program P1. -/
theorem test_build_table :
    nextIs (exec .build (operands 4#32 0x3FF0000000000000#64)) (fun t =>
      t.lut == fourPoint.lut && t.length == 4#32 && t.statusWord == 2#32) = true := by decide +kernel
/-- Selected entries of the source's lengths and of L = 5. -/
theorem test_sine_ref :
    sineRef 1470 1 = 0x3B8C0F1D#32 ∧ sineRef 1470 735 = 0x250D3132#32 ∧ sineRef 1470 1103 = 0xBF7FFFDA#32 ∧
    sineRef 735 184 = 0x3F7FFFDA#32 ∧ sineRef 735 734 = 0xBC0C0EC9#32 ∧ sineRef 5 2 = 0x3F167918#32 := by
  decide +kernel

/-- P2 of 40_table_builder.md R105 by hand: sin(pi) is 0, so -2^-24 is just allowed and the value after 2^-24 is
not; sin(pi/6) is 1/2, so 1/2 + 2^-24 is just allowed; P0 allows +0.0 only; P1 nothing above 1.0. -/
theorem test_entry_legal :
    entryLegal 4 2 0xB3800000#32 = true ∧ entryLegal 4 2 0x33800001#32 = false ∧
    entryLegal 12 1 0x3F000001#32 = true ∧ entryLegal 12 1 0x3F000002#32 = false ∧
    entryLegal 4 3 0xBF7FFFFF#32 = true ∧ entryLegal 4 3 0xBF7FFFFE#32 = false ∧
    entryLegal 4 0 0x80000000#32 = false ∧ entryLegal 4 1 0x3F800001#32 = false := by decide +kernel
/-- SINE_REF's entries of 95_test_vectors.md are allowed, and the next table value is not. -/
theorem test_entry_legal_of_the_spec :
    entryLegal 5 2 0x3F167918#32 = true ∧ entryLegal 8 5 0xBF3504F3#32 = true ∧
    entryLegal 735 184 0x3F7FFFDA#32 = true ∧ entryLegal 735 183 0x3F7FFFDA#32 = false := by
  decide +kernel

/-! ## FRAME and BUFFER -/

/-- Products of 95_test_vectors.md: signed zeros, subnormals, underflow, rounding, no overflow, infinities
and the two kinds of NaN. -/
theorem test_products :
    f32mul 0xBF000000#32 0x00000000#32 = some 0x80000000#32 ∧
    f32mul 0x80000001#32 0xBF800000#32 = some 0x00000001#32 ∧
    f32mul 0x00000003#32 0x3F5DB3D7#32 = some 0x00000003#32 ∧
    f32mul 0x00800000#32 0x250D3132#32 = some 0x00000000#32 ∧
    f32mul 0x3F400000#32 0x250D3132#32 = some 0x24D3C9CB#32 ∧
    f32mul 0x7F61B1E6#32 0x250D3132#32 = some 0x64F8F4B6#32 ∧
    f32mul 0x40400000#32 0x3F5DB3D7#32 = some 0x402646E1#32 ∧
    f32mul 0x7F800000#32 0xBF5DB3D7#32 = some 0xFF800000#32 ∧
    f32mul 0x7F800000#32 0x00000000#32 = none ∧ f32mul 0x7FC00000#32 0x00000000#32 = none := by
  decide +kernel
/-- R132 at phase 3: -0.25 times -1.0, and the wrap. -/
theorem test_frame_wraps :
    nextIs (exec (.frame 0xBE800000#32 0x7F61B1E6#32) (runningFour 1#32 3#32)) (fun t =>
      t.framesOut == [⟨0x3E800000#32, 0xFF61B1E6#32⟩] && t.phaseL == 0#32 && t.phaseR == 0#32) = true := by
  decide +kernel
/-- The worked example of 41_modulation_engine.md. -/
theorem test_buffer :
    nextIs (exec (.buffer [⟨0x3F000000#32, 0xBF000000#32⟩, ⟨0x3F800000#32, 0x3F800000#32⟩])
      (runningFour 2#32 1#32)) (fun t =>
        t.framesOut == [⟨0x3F000000#32, 0xBF000000#32⟩, ⟨0x250D3132#32, 0x250D3132#32⟩] &&
        t.bufferResult == some 0#32 && t.phaseL == 3#32 && t.phaseR == 3#32) = true := by decide +kernel
/-- A buffer of another length, or while stopped, has no step. -/
theorem test_buffer_not_admitted :
    refusalIs (exec (.buffer [⟨0#32, 0#32⟩]) (runningFour 2#32 0#32)) .bufferNotAdmitted = true ∧
    refusalIs (exec (.buffer [⟨0#32, 0#32⟩]) { fourPoint with fpbActive := 1#32 }) .bufferNotAdmitted =
      true := by decide +kernel
/-- Whatever is drawn is a quiet NaN: infinity times entry 0. -/
theorem test_frame_draws_a_quiet_nan :
    nextIs (exec (.frame 0x7F800000#32 0x3F800000#32) (runningFour 1#32 0#32)) (fun t =>
      t.nanDraws == 1 && t.framesOut.map (·.right) == [0x00000000#32]) = true := by decide +kernel

/-! ## RD, WR and ACCESS_ERROR -/

theorem test_rd_after_reset :
    nextIs (exec (.rd 0x00008#19) State.reset) (fun t => t.readData == some 0x0000AC44#32) = true ∧
    nextIs (exec (.rd 0x00010#19) State.reset) (fun t => t.readData == some 0x403E0000#32) = true ∧
    nextIs (exec (.rd 0x3FFFC#19) State.reset) (fun t => t.readData == some 0#32) = true ∧
    nextIs (exec (.rd 0x40004#19) State.reset) (fun t => t.readData == some 0#32) = true := by
  decide +kernel
theorem test_rd_lut_window :
    nextIs (exec (.rd 0x4000C#19) fourPoint) (fun t => t.readData == some 0xBF800000#32) = true ∧
    nextIs (exec (.rd 0x40010#19) fourPoint) (fun t => t.readData == some 0#32) = true := by decide +kernel
/-- Program P3, line 8: FREQ is locked while running. -/
theorem test_wr_locked :
    nextIs (exec (.wr 0x00010#19 0x40100000#32) (runningFour 3#32 0#32))
      (fun t => t.statusWord == 0x703#32 && t.freq == 0x3FF0000000000000#64) = true := by decide +kernel
/-- One half of FREQ: 60.0 from the reset value 30.0 (70_reset_and_hazards.md R185). -/
theorem test_wr_freq_hi :
    nextIs (exec (.wr 0x00010#19 0x404E0000#32) State.reset)
      (fun t => t.freq == 0x404E000000000000#64 && t.err == 0#4) = true := by decide +kernel
/-- Program P4, lines 19 and 20. -/
theorem test_access_error :
    faultIs (step (State.reset.withFetchWord 64 0x0010000200000000)) (.accessError 0x00002#19) = true ∧
    faultIs (step (State.reset.withFetchWord 64 0x80080004FFFFFFFF)) (.accessError 0x00004#19) = true := by
  decide +kernel

/-! ## Steps -/

/-- BUILD as the first step after reset, from its command word: the source's length 1470. -/
theorem test_step_runs_build :
    nextIs (step (State.reset.withFetchWord 32 0x00000001))
      (fun t => t.length == 1470#32 && t.pending == []) = true := by decide +kernel
/-- A reset step while running with a table. -/
theorem test_step_reset :
    nextIs (step { runningFour 3#32 2#32 with pending := [.reset] }) (fun t =>
      t.statusWord == 0#32 && t.fpb == 64#32 && t.lutWindow 1 == 0#32 && t.phaseL == 0#32) = true := by
  decide +kernel

/-! ## Witnesses: states and operands that meet the hypotheses of each statement -/

/-- The four-point state, stopped and running at the last phase, meets the invariant and the table rule. -/
theorem witness_inv : fourPoint.Inv ∧ (runningFour 3#32 3#32).Inv := by
  constructor <;> decide +kernel

theorem witness_tableInv : (runningFour 3#32 3#32).TableInv := by
  have h : ∀ i, i < 4 → fourPoint.lut.read i = some (sineRef 4 i) := by decide +kernel
  exact h

/-- A running state with agent steps to come. -/
def upNext (as : List Arrival) : State := { runningFour 3#32 3#32 with pending := as }

theorem witness_upNext_inv (as : List Arrival) : (upNext as).Inv := witness_inv.2
theorem witness_upNext_tableInv (as : List Arrival) : (upNext as).TableInv := witness_tableInv

/-- The bus words of NOP, BUILD, START, STOP and RD STATUS (programs P1 to P5). -/
def nopWord : DWord := 0x8010000000000000#64
def buildWord : DWord := 0x8010000000000001#64
def startWord : DWord := 0x8010000000000002#64
def stopWord : DWord := 0x8010000000000003#64
def statusWordRead : DWord := 0x0010000400000000#64
/-- An all-ones frame word. -/
def ones : DWord := 0x3F8000003F800000#64

/-- ResetSetsEveryElement, NoBufferAfterReset: a reset while running. -/
theorem witness_reset_pending :
    ∃ (s : State) (rest : List Arrival), s.running = true ∧ s.tableValid = true ∧ s.pending = .reset :: rest :=
  ⟨upNext [.reset, .host startWord], _, rfl, rfl, rfl⟩

/-- StepRunsTheDecodedInstruction: a state for each of its five clauses. -/
theorem witness_step_clauses :
    (upNext []).pending = [] ∧
    ((upNext [.host stopWord]).pending = .host stopWord :: [] ∧
      decode (.bus stopWord) = .ok (.wr 0x00000#19 3#32)) ∧
    ((upNext [.stream [ones]]).pending = .stream [ones] :: [] ∧
      decode (.buffer [ones]) = .ok (.buffer [⟨0x3F800000#32, 0x3F800000#32⟩])) ∧
    ((upNext [.host 0x0020000400000000#64]).pending = .host 0x0020000400000000#64 :: [] ∧
      decode (.bus 0x0020000400000000#64) = .error .spellsNoAccess) ∧
    ((upNext [.stream []]).pending = .stream [] :: [] ∧ decode (.buffer []) = .error .emptyBuffer) := by
  decide +kernel

/-- UnitsReachTheirInstruction: the fewest and the most frames of a buffer, and a legal BUS unit. -/
theorem witness_units :
    1 ≤ [ones].length ∧ (List.replicate (2 ^ 32 - 1) ones).length < 2 ^ 32 ∧
    decode (.bus statusWordRead) = .ok (.rd 0x00004#19) := by
  refine ⟨by decide, ?_, by decide +kernel⟩
  rw [List.length_replicate]
  decide

/-- DecodeEncodeRoundTrip: well-formed terms of every constructor at the ends of their operands' ranges. -/
theorem witness_wf :
    Instr.nop.wf = true ∧ Instr.build.wf = true ∧ Instr.start.wf = true ∧ Instr.stop.wf = true ∧
    (Instr.illegalCmd 0#28 4#4).wf = true ∧ (Instr.illegalCmd 0xFFFFFFF#28 0#4).wf = true ∧
    (Instr.rd 0x7FFFC#19).wf = true ∧ (Instr.wr 0x00000#19 0xFFFFFFFF#32).wf = true ∧
    (Instr.accessError .read .eight 0x00000#19 0#32).wf = true ∧
    (Instr.accessError .write .four 0x7FFFF#19 0xFFFFFFFF#32).wf = true ∧
    (Instr.frame 0x00000000#32 0xFFFFFFFF#32).wf = true ∧
    (Instr.buffer [⟨0#32, 0#32⟩]).wf = true := by decide

/-- DecodedInstructionsAreWellFormed: a unit that its instruction encodes back to, and a read with WDATA. -/
theorem witness_decoded :
    (decode (.bus buildWord) = .ok (.wr 0x00000#19 1#32) ∧
      encode (.wr 0x00000#19 1#32) = .bus buildWord) ∧
    (decode (.bus 0x0010000400000001#64) = .ok (.rd 0x00004#19) ∧
      encode (.rd 0x00004#19) = .bus statusWordRead) := by decide +kernel

/-- WordsThatSpellNoAccess: RSVB alone, and the least and greatest SIZE that spells nothing. -/
theorem witness_no_access :
    ((0x0040000000000000#64).extractLsb' 54 9 ≠ 0#9 ∧ ((0x0040000000000000#64).extractLsb' 51 3).toNat = 0) ∧
    4 ≤ ((0x0020000400000000#64).extractLsb' 51 3).toNat ∧
    ((0x0038000000000000#64).extractLsb' 51 3).toNat = 7 ∧
    (upNext [.host 0x0038000000000000#64]).pending = .host 0x0038000000000000#64 :: [] := by
  decide +kernel

/-- StartOutcome: a state for each outcome, FPB at both ends of its legal range and just outside them. -/
theorem witness_start :
    (runningFour 3#32 3#32).running = true ∧ State.reset.tableValid = false ∧
    nextIs (exec .start { fourPoint with fpb := 0#32 }) (fun t => t.err == 5#4) = true ∧
    nextIs (exec .start { fourPoint with fpb := 4097#32 }) (fun t => t.err == 5#4) = true ∧
    nextIs (exec .start { fourPoint with fpb := 1#32 }) (fun t => t.err == 0#4) = true ∧
    nextIs (exec .start { fourPoint with fpb := 4096#32 }) (fun t => t.err == 0#4) = true := by
  decide +kernel

theorem witness_start_succeeds : ∃ t, exec .start fourPoint = .next t ∧ t.err = 0#4 := by
  obtain ⟨t, h, ht⟩ :=
    of_nextIs (r := exec .start fourPoint) (p := fun t => t.err == 0#4) (by decide +kernel)
  exact ⟨t, h, by simpa using ht⟩

/-- IllegalCommandOnlySetsErr: one reserved bit alone, and the least reserved OP. -/
theorem witness_reserved_words :
    ((0x00000011#32).extractLsb' 4 28 ≠ 0#28 ∧ ((0x00000011#32).extractLsb' 0 4).toNat < 4) ∧
    ((0x00000004#32).extractLsb' 4 28 = 0#28 ∧ ((0x00000004#32).extractLsb' 0 4).toNat = 4) := by decide

/-- What a quotient is, for BuildOutcome's clauses. -/
def quotientIs (sr : Word) (f : DWord) (p : DWord → Bool) : Bool :=
  !f64isNaN f && !f64nonPositive f &&
  match f64div (toF64 sr.toNat) f with
  | some q => p q
  | none => false

/-- BuildOutcome: a NaN, a zero and a negative frequency; an infinite quotient, one above LUT_DEPTH_MAX and
one at it; one just below 1, and 1. -/
theorem witness_build_clauses :
    f64isNaN 0xFFF0000000000001#64 = true ∧ f64nonPositive 0x8000000000000000#64 = true ∧
    f64nonPositive 0xFFF0000000000000#64 = true ∧
    quotientIs 44100#32 0x0000000000000001#64 f64isInf = true ∧
    quotientIs 65537#32 0x3FF0000000000000#64 (fun q => !f64isInf q && f64floor q == 65537) = true ∧
    quotientIs 65536#32 0x3FF0000000000000#64 (fun q => !f64isInf q && f64floor q == 65536) = true ∧
    quotientIs 44100#32 0x40E5888000000001#64 (fun q => !f64isInf q && f64floor q == 0) = true ∧
    quotientIs 44100#32 0x40E5888000000000#64 (fun q => !f64isInf q && f64floor q == 1) = true := by
  decide +kernel

/-- BuildLengthNearExactFloor: a length one above the exact floor, and an exact quotient. -/
theorem witness_lengths :
    tableLength 65536 44100#32 0x3FE999999999999A#64 = .ok 55125 ∧
    tableLength 65536 44100#32 0x403E000000000000#64 = .ok 1470 := by
  have key : ∀ (sr : Word) (f : DWord) (n : Nat), n ≠ 0 → lengthOf sr f = n →
      tableLength 65536 sr f = .ok n := by
    intro sr f n hn h
    unfold lengthOf at h
    split at h
    · rename_i L hL
      rw [hL, h]
    · exact absurd h.symm hn
  exact ⟨key _ _ _ (by decide) (by decide +kernel), key _ _ _ (by decide) (by decide +kernel)⟩

theorem witness_exact_quotient :
    ((1470 : Nat) : ℚ) * binary64.real (0x403E000000000000#64).toNat = ((44100#32).toNat : ℚ) := by
  decide +kernel

/-- SameLengthSameTable: 44100 Hz at 30 Hz and 48000 Hz at 32.653... Hz (40_table_builder.md R109). -/
theorem witness_two_builds :
    ∃ s₁ s₂ t₁ t₂ : State, s₁.params.Legal ∧ s₂.params = s₁.params ∧ exec .build s₁ = .next t₁ ∧
      exec .build s₂ = .next t₂ ∧ t₁.err = 0#4 ∧ t₂.err = 0#4 ∧ t₁.length = t₂.length ∧
      1469 < t₁.length.toNat := by
  obtain ⟨t₁, h₁, p₁⟩ := of_nextIs (r := exec .build (operands 44100#32 0x403E000000000000#64))
    (p := fun t => t.err == 0#4 && t.length == 1470#32) (by decide +kernel)
  obtain ⟨t₂, h₂, p₂⟩ := of_nextIs (r := exec .build (operands 48000#32 0x40405397829CBC15#64))
    (p := fun t => t.err == 0#4 && t.length == 1470#32) (by decide +kernel)
  simp only [Bool.and_eq_true, beq_iff_eq] at p₁ p₂
  have legal : (operands 44100#32 0x403E000000000000#64).params.Legal := by decide
  exact ⟨operands 44100#32 0x403E000000000000#64, operands 48000#32 0x40405397829CBC15#64, t₁, t₂, legal,
    rfl, h₁, h₂, p₁.1, p₂.1, by rw [p₁.2, p₂.2], by rw [p₁.2]; decide⟩

/-- DivisionIsCorrectlyRounded: the largest finite value by 1.0 is below the bound, by the value just below
1.0 it is past it. -/
theorem witness_division :
    (binary64.Finite (0x7FEFFFFFFFFFFFFF#64).toNat ∧ binary64.Finite (0x3FF0000000000000#64).toNat ∧
      binary64.isZero (0x3FF0000000000000#64).toNat = false ∧
      |binary64.real (0x7FEFFFFFFFFFFFFF#64).toNat / binary64.real (0x3FF0000000000000#64).toNat| <
        binary64.overflowBound) ∧
    (binary64.Finite (0x3FEFFFFFFFFFFFFF#64).toNat ∧
      binary64.isZero (0x3FEFFFFFFFFFFFFF#64).toNat = false ∧
      binary64.overflowBound ≤
        |binary64.real (0x7FEFFFFFFFFFFFFF#64).toNat / binary64.real (0x3FEFFFFFFFFFFFFF#64).toNat|) := by
  unfold FloatFormat.Finite
  decide +kernel

/-- ProductIsCorrectlyRounded: 31.0 times 1082401 * 2^103 is the bound itself, times the value just below it
is below the bound. -/
theorem witness_product :
    (binary32.Finite (0xC1F80000#32).toNat ∧ binary32.Finite (0x7D042108#32).toNat ∧
      binary32.overflowBound ≤ |binary32.real (0xC1F80000#32).toNat * binary32.real (0x7D042108#32).toNat|) ∧
    (binary32.Finite (0x7D042107#32).toNat ∧
      |binary32.real (0xC1F80000#32).toNat * binary32.real (0x7D042107#32).toNat| <
        binary32.overflowBound) := by
  unfold FloatFormat.Finite
  decide +kernel

/-- ProductSpecialCases: an infinity times the least subnormal is no NaN, and a zero times a finite value. -/
theorem witness_product_special :
    (f32mul 0x7F800000#32 0x80000001#32 ≠ none ∧ binary32.isInf (0x7F800000#32).toNat = true) ∧
    (binary32.Finite (0x80000000#32).toNat ∧ binary32.Finite (0x7F7FFFFF#32).toNat ∧
      binary32.isZero (0x80000000#32).toNat = true) := by
  unfold FloatFormat.Finite
  decide +kernel

/-- UnitSampleReproducesTheEntry, OutputNoLargerThanInput: an entry of -1.0 and the largest finite sample. -/
theorem witness_entry :
    binary32.Finite (0xBF800000#32).toNat ∧ binary32.mag (0xBF800000#32).toNat ≤ 0x3F800000 ∧
    binary32.Finite (0x7F7FFFFF#32).toNat := by
  unfold FloatFormat.Finite
  decide +kernel

/-- SineRomStartsAtZero, SineRomWithinOne, SineRefIsAccurate, SineRomIsAccurate,
SineRomMayHoldEveryLegalEntry: the least length, and the last entry of the
greatest. -/
theorem witness_lut_index :
    (1 ≤ 1 ∧ 1 ≤ 65536 ∧ 0 < 1) ∧ (1 ≤ 65536 ∧ 65536 ≤ 65536 ∧ 65535 < 65536) := by decide

/-- FrameOutcome: a phase just below LENGTH, and one at it. -/
theorem witness_frame :
    ((runningFour 1#32 3#32).phaseL.toNat < (runningFour 1#32 3#32).length.toNat ∧
      (runningFour 1#32 3#32).phaseR.toNat < (runningFour 1#32 3#32).length.toNat) ∧
    ¬ ((runningFour 1#32 4#32).phaseL.toNat < (runningFour 1#32 4#32).length.toNat ∧
      (runningFour 1#32 4#32).phaseR.toNat < (runningFour 1#32 4#32).length.toNat) := by decide

/-- BufferOutcome: an admitted buffer, one of another length, one while stopped, and a phase out of range. -/
theorem witness_buffer :
    ((runningFour 1#32 3#32).running = true ∧
      [(⟨0x3F800000#32, 0x7F800000#32⟩ : Frame)].length = (runningFour 1#32 3#32).fpbActive.toNat ∧
      (runningFour 1#32 3#32).phaseL.toNat < (runningFour 1#32 3#32).length.toNat) ∧
    ([] : List Frame).length ≠ (runningFour 1#32 3#32).fpbActive.toNat ∧ fourPoint.running = false ∧
    ¬ ((runningFour 1#32 4#32).phaseL.toNat < (runningFour 1#32 4#32).length.toNat) := by decide

/-- RunOfBuffersAdvancesThePhases: two buffers of three frames, and a STOP after them (program P1). -/
theorem witness_run :
    (runningFour 3#32 3#32).Inv ∧ (upNext ([[ones, ones, ones], [ones, ones, ones]].map Arrival.stream ++
      [.host stopWord])).running = true ∧
    ∀ b ∈ [[ones, ones, ones], [ones, ones, ones]], b.length = (runningFour 3#32 3#32).fpbActive.toNat :=
  ⟨witness_inv.2, by decide, by decide⟩

/-- LanesAreIndependent: the right sample infinite at phase 1, where its product is no NaN. -/
theorem witness_lanes :
    (∃ t, exec (.frame 0x7FC00000#32 0x7F800000#32) (runningFour 1#32 1#32) = .next t) ∧
    (∃ t, exec (.frame 0x3F800000#32 0x7F800000#32) (runningFour 1#32 1#32) = .next t) ∧
    f32mul 0x7F800000#32 ((runningFour 1#32 1#32).lutEntry (runningFour 1#32 1#32).phaseR.toNat) ≠ none := by
  refine ⟨?_, ?_, by decide +kernel⟩
  · obtain ⟨t, h, -⟩ := of_nextIs (r := exec (.frame 0x7FC00000#32 0x7F800000#32) (runningFour 1#32 1#32))
      (p := fun _ => true) (by decide +kernel)
    exact ⟨t, h⟩
  · obtain ⟨t, h, -⟩ := of_nextIs (r := exec (.frame 0x3F800000#32 0x7F800000#32) (runningFour 1#32 1#32))
      (p := fun _ => true) (by decide +kernel)
    exact ⟨t, h⟩

/-- ReadsFollowTheRegisterMap, OtherWritesAreIgnored, HostAccessesComplete, AccessErrorsStop: the ends of
the reserved range, the ends of the LUT window, a misaligned offset and each illegal size. -/
theorem witness_offsets :
    (Offset.aligned 0x00028#19 = true ∧ 0x00028 ≤ (0x00028#19).toNat ∧ (0x00028#19).toNat < 0x40000) ∧
    (Offset.aligned 0x3FFFC#19 = true ∧ 0x00028 ≤ (0x3FFFC#19).toNat ∧ (0x3FFFC#19).toNat < 0x40000) ∧
    (0 < 65536 ∧ BitVec.ofNat 19 (0x40000 + 4 * 0) = 0x40000#19) ∧
    (65535 < 65536 ∧ BitVec.ofNat 19 (0x40000 + 4 * 65535) = 0x7FFFC#19) ∧
    Offset.aligned 0x7FFFF#19 = false ∧ accessLegal .one 0x00000#19 = false ∧
    accessLegal .eight 0x00000#19 = false ∧ accessLegal .four 0x00001#19 = false ∧
    (Offset.aligned 0x00018#19 = true ∧
      0x00018#19 ∉ [0x00000#19, 0x00008#19, 0x0000C#19, 0x00010#19, 0x00014#19]) := by decide

/-- AccessErrorsStop: a BUS word of 8 bytes at CMD (95_test_vectors.md), and 4 bytes at offset 2. -/
theorem witness_access_error_words :
    ((0x8018000000000001#64).extractLsb' 54 9 = 0#9 ∧ ((0x8018000000000001#64).extractLsb' 51 3).toNat < 4 ∧
      (0x8018000000000001#64).extractLsb' 51 3 ≠ 2#3) ∧
    ((0x0010000200000000#64).extractLsb' 54 9 = 0#9 ∧ ((0x0010000200000000#64).extractLsb' 51 3).toNat < 4 ∧
      (0x0010000200000000#64).extractLsb' 32 2 ≠ 0#2) ∧
    (upNext [.host 0x8018000000000001#64]).pending = .host 0x8018000000000001#64 :: [] := by
  decide +kernel

/-- ConfigurationReadsBack: FREQ_LO and FREQ_HI, while stopped. -/
theorem witness_configuration :
    0x0000C#19 ∈ [0x00008#19, 0x0000C#19, 0x00010#19, 0x00014#19] ∧
    0x00010#19 ∈ [0x00008#19, 0x0000C#19, 0x00010#19, 0x00014#19] ∧ 0x00010#19 ≠ 0x0000C#19 ∧
    fourPoint.running = false := by decide

/-! The statements about every step from a state: a step of each kind from a state that meets what they
assume, with the change they speak of. -/

/-- StepKeepsTheInvariant, StepKeepsTheTable, RealTimeFaultIsUnreachable, StepTakesOneArrival: a whole
buffer is processed from a good state. -/
theorem witness_stream_step :
    (upNext [.stream [ones, ones, ones]]).Inv ∧ (upNext [.stream [ones, ones, ones]]).TableInv ∧
    ∃ t, step (upNext [.stream [ones, ones, ones]]) = .next t ∧ t.phaseL = 2#32 := by
  obtain ⟨t, h, ht⟩ := of_nextIs (r := step (upNext [.stream [ones, ones, ones]]))
    (p := fun t => t.phaseL == 2#32) (by decide +kernel)
  exact ⟨witness_upNext_inv _, witness_upNext_tableInv _, t, h, by simpa using ht⟩

/-- OnlyStartSetsRunning: a START and a STOP. -/
theorem witness_running_changes :
    (∃ t, step { fourPoint with pending := [.host startWord] } = .next t ∧ fourPoint.running = false ∧
      t.running = true) ∧
    ∃ t, step (upNext [.host stopWord]) = .next t ∧ (upNext [.host stopWord]).running = true ∧
      t.running = false := by
  obtain ⟨t, h, ht⟩ := of_nextIs (r := step { fourPoint with pending := [.host startWord] })
    (p := fun t => t.running) (by decide +kernel)
  obtain ⟨u, k, hu⟩ := of_nextIs (r := step (upNext [.host stopWord]))
    (p := fun t => !t.running) (by decide +kernel)
  exact ⟨⟨t, h, rfl, ht⟩, u, k, rfl, by simpa using hu⟩

/-- OnlyBuildWritesTheTable: the first BUILD after reset, and a reset of a block with a table. -/
theorem witness_table_changes :
    (∃ t, step { State.reset with pending := [.host buildWord] } = .next t ∧
      t.tableValid ≠ State.reset.tableValid ∧ t.length ≠ State.reset.length) ∧
    ∃ t, step (upNext [.reset]) = .next t ∧ t.tableValid ≠ (upNext [.reset]).tableValid := by
  obtain ⟨t, h, ht⟩ := of_nextIs (r := step { State.reset with pending := [.host buildWord] })
    (p := fun t => decide (t.tableValid ≠ State.reset.tableValid ∧ t.length ≠ State.reset.length))
    (by decide +kernel)
  obtain ⟨u, k, hu⟩ := of_nextIs (r := step (upNext [.reset]))
    (p := fun t => decide (t.tableValid ≠ (upNext [.reset]).tableValid)) (by decide +kernel)
  exact ⟨⟨t, h, of_decide_eq_true ht⟩, u, k, of_decide_eq_true hu⟩

/-- OnlyCommandAndConfigurationWritesChangeErr: a BUILD while running. -/
theorem witness_err_changes :
    ∃ t, step (upNext [.host buildWord]) = .next t ∧ t.err ≠ (upNext [.host buildWord]).err := by
  obtain ⟨t, h, ht⟩ := of_nextIs (r := step (upNext [.host buildWord]))
    (p := fun t => decide (t.err ≠ (upNext [.host buildWord]).err)) (by decide +kernel)
  exact ⟨t, h, of_decide_eq_true ht⟩

/-- RunningLocksTableAndConfiguration, OnlyBuffersMoveThePhases: a write to FREQ_HI while running, which is
neither a reset nor a buffer, and a NOP while stopped. -/
theorem witness_locked_step :
    (∃ t, step (upNext [.host 0x8010001040100000#64]) = .next t ∧
      (upNext [.host 0x8010001040100000#64]).running = true ∧
      (∀ rest, (upNext [.host 0x8010001040100000#64]).pending ≠ .reset :: rest) ∧
      ∀ ws rest, (upNext [.host 0x8010001040100000#64]).pending ≠ .stream ws :: rest) ∧
    ∃ t, step { fourPoint with pending := [.host nopWord] } = .next t ∧ fourPoint.running = false ∧
      ∀ rest, ({ fourPoint with pending := [.host nopWord] } : State).pending ≠ .reset :: rest := by
  obtain ⟨t, h, -⟩ := of_nextIs (r := step (upNext [.host 0x8010001040100000#64]))
    (p := fun _ => true) (by decide +kernel)
  obtain ⟨u, k, -⟩ := of_nextIs (r := step { fourPoint with pending := [.host nopWord] })
    (p := fun _ => true) (by decide +kernel)
  exact ⟨⟨t, h, rfl, fun _ => by simp [upNext], fun _ _ => by simp [upNext]⟩, u, k, rfl, fun _ => by simp⟩

/-- FailedOperationsChangeOnlyErr: a START without a table, and a locked configuration write. -/
theorem witness_failed_operations :
    (∃ t, exec .start State.reset = .next t ∧ t.err ≠ 0#4) ∧
    ∃ t, exec (.wr 0x00014#19 128#32) (runningFour 3#32 0#32) = .next t ∧ t.err ≠ 0#4 := by
  obtain ⟨t, h, ht⟩ := of_nextIs (r := exec .start State.reset)
    (p := fun t => decide (t.err ≠ 0#4)) (by decide +kernel)
  obtain ⟨u, k, hu⟩ := of_nextIs (r := exec (.wr 0x00014#19 128#32) (runningFour 3#32 0#32))
    (p := fun t => decide (t.err ≠ 0#4)) (by decide +kernel)
  exact ⟨⟨t, h, of_decide_eq_true ht⟩, u, k, of_decide_eq_true hu⟩

/-- HiddenEntriesAreUnobservable: a storage that differs at and above LENGTH only. -/
theorem witness_hidden_entries :
    (upNext []).Inv ∧ fourPoint.lut ++ [0x3F800000#32] ≠ (upNext []).lut ∧
    ∀ i, i < (upNext []).length.toNat →
      Memory.read (fourPoint.lut ++ [0x3F800000#32]) i = (upNext []).lut.read i := by
  refine ⟨witness_upNext_inv _, by decide, ?_⟩
  have h : ∀ i, i < 4 → Memory.read (fourPoint.lut ++ [0x3F800000#32]) i = fourPoint.lut.read i := by decide
  exact h

end Sys2Proof.Tests
end

section
/-! PROOFS. Correct rounding: `roundMag` finds the magnitude nearest to an exact fraction, and so the
quotient of finite values is correctly rounded (00_scope.md R9). The lemmas up to the
quotient are about any format and any exact value; binary64 enters at the end. -/

namespace Sys2Proof.Machine

namespace FloatFormat

/-! ## Magnitude fields and their values -/

/-- The value of a magnitude field in units. The field has no bound here, so that a rounding that passes
the largest finite magnitude still has a value to compare. -/
def magUnits (f : FloatFormat) (m : Nat) : Nat :=
  if m / 2 ^ f.fracBits = 0 then m % 2 ^ f.fracBits
  else (m % 2 ^ f.fracBits + 2 ^ f.fracBits) * 2 ^ (m / 2 ^ f.fracBits - 1)

theorem units_eq_magUnits (f : FloatFormat) (bits : Nat) : f.units bits = f.magUnits (f.mag bits) := rfl

@[simp] theorem magUnits_zero (f : FloatFormat) : f.magUnits 0 = 0 := by simp [magUnits]

theorem magUnits_of_lt (f : FloatFormat) {m : Nat} (h : m < 2 ^ f.fracBits) : f.magUnits m = m := by
  simp [magUnits, Nat.div_eq_of_lt h, Nat.mod_eq_of_lt h]

/-- A normal magnitude: exponent field `e + 1`, fraction `j`. -/
theorem magUnits_normal (f : FloatFormat) (e : Nat) {j : Nat} (h : j < 2 ^ f.fracBits) :
    f.magUnits ((e + 1) * 2 ^ f.fracBits + j) = (j + 2 ^ f.fracBits) * 2 ^ e := by
  have hdiv : ((e + 1) * 2 ^ f.fracBits + j) / 2 ^ f.fracBits = e + 1 := by
    rw [mul_comm, Nat.mul_add_div (by positivity), Nat.div_eq_of_lt h, add_zero]
  have hmod : ((e + 1) * 2 ^ f.fracBits + j) % 2 ^ f.fracBits = j := by
    rw [Nat.mul_add_mod', Nat.mod_eq_of_lt h]
  simp [magUnits, hdiv, hmod]

/-- The significand `k` at the place `2 ^ t` is the field `t * 2 ^ fracBits + k`, also where `k` has just
carried out of `fracBits + 1` bits. -/
theorem magUnits_place (f : FloatFormat) {t k : Nat} (hlo : t = 0 ∨ 2 ^ f.fracBits ≤ k)
    (hhi : k ≤ 2 * 2 ^ f.fracBits) : f.magUnits (t * 2 ^ f.fracBits + k) = k * 2 ^ t := by
  rcases lt_or_ge k (2 ^ f.fracBits) with hsub | hnormal
  · obtain rfl : t = 0 := by omega
    simpa using f.magUnits_of_lt hsub
  · obtain ⟨j, rfl⟩ := Nat.exists_eq_add_of_le hnormal
    rcases lt_or_ge j (2 ^ f.fracBits) with hj | hj
    · calc f.magUnits (t * 2 ^ f.fracBits + (2 ^ f.fracBits + j))
          = f.magUnits ((t + 1) * 2 ^ f.fracBits + j) := by congr 1; ring
        _ = (2 ^ f.fracBits + j) * 2 ^ t := by rw [f.magUnits_normal t hj, add_comm j]
    · obtain rfl : j = 2 ^ f.fracBits := by omega
      calc f.magUnits (t * 2 ^ f.fracBits + (2 ^ f.fracBits + 2 ^ f.fracBits))
          = f.magUnits ((t + 1 + 1) * 2 ^ f.fracBits + 0) := by congr 1; ring
        _ = (2 ^ f.fracBits + 2 ^ f.fracBits) * 2 ^ t := by
          rw [f.magUnits_normal (t + 1) (by positivity)]; ring

/-- Every field is a significand at a place. -/
theorem exists_place (f : FloatFormat) (m : Nat) :
    ∃ t k, m = t * 2 ^ f.fracBits + k ∧ (t = 0 ∨ 2 ^ f.fracBits ≤ k) ∧ k < 2 * 2 ^ f.fracBits := by
  have hmod : m % 2 ^ f.fracBits < 2 ^ f.fracBits := Nat.mod_lt _ (by positivity)
  have hm := Nat.div_add_mod' m (2 ^ f.fracBits)
  rcases he : m / 2 ^ f.fracBits with _ | e
  · exact ⟨0, m % 2 ^ f.fracBits, by rw [he] at hm; exact hm.symm, .inl rfl, by omega⟩
  · refine ⟨e, m % 2 ^ f.fracBits + 2 ^ f.fracBits, ?_, .inr (by omega), by omega⟩
    rw [he, Nat.succ_mul] at hm
    omega

/-- The order of the fields is the order of the values. -/
theorem magUnits_strictMono (f : FloatFormat) : StrictMono f.magUnits := by
  refine strictMono_nat_of_lt_succ fun m => ?_
  obtain ⟨t, k, rfl, hlo, hhi⟩ := f.exists_place m
  rw [f.magUnits_place hlo hhi.le, add_assoc, f.magUnits_place (by omega) hhi]
  exact Nat.mul_lt_mul_of_pos_right (Nat.lt_succ_self k) (by positivity)

theorem magUnits_pos (f : FloatFormat) {m : Nat} (h : m ≠ 0) : 0 < f.magUnits m := by
  simpa using f.magUnits_strictMono (Nat.pos_of_ne_zero h)

/-! ## The nearest magnitude -/

/-- Of all fields, unbounded, `m` has the value nearest to `q` units, and of two nearest it is the even
one. -/
def NearestMag (f : FloatFormat) (q : Rat) (m : Nat) : Prop :=
  ∀ n, |(f.magUnits m : Rat) - q| ≤ |(f.magUnits n : Rat) - q| ∧
    (|(f.magUnits m : Rat) - q| = |(f.magUnits n : Rat) - q| → n = m ∨ m % 2 = 0)

section Neighbours

variable (f : FloatFormat) {q : Rat} {m n : Nat}

/-- Below `q`, a greater field is nearer. -/
theorem dist_le_of_le_of_le_value (hm : (f.magUnits m : Rat) ≤ q) (h : n ≤ m) :
    |(f.magUnits m : Rat) - q| ≤ |(f.magUnits n : Rat) - q| ∧
      (|(f.magUnits m : Rat) - q| = |(f.magUnits n : Rat) - q| → n = m) := by
  have hu : (f.magUnits n : Rat) ≤ f.magUnits m := by exact_mod_cast f.magUnits_strictMono.monotone h
  rw [abs_of_nonpos (by linarith), abs_of_nonpos (by linarith)]
  exact ⟨by linarith, fun heq =>
    f.magUnits_strictMono.injective (Nat.cast_injective (R := Rat) (by linarith))⟩

/-- Above `q`, a smaller field is nearer. -/
theorem dist_le_of_ge_of_value_le (hm : q ≤ (f.magUnits m : Rat)) (h : m ≤ n) :
    |(f.magUnits m : Rat) - q| ≤ |(f.magUnits n : Rat) - q| ∧
      (|(f.magUnits m : Rat) - q| = |(f.magUnits n : Rat) - q| → n = m) := by
  have hu : (f.magUnits m : Rat) ≤ f.magUnits n := by exact_mod_cast f.magUnits_strictMono.monotone h
  rw [abs_of_nonneg (by linarith), abs_of_nonneg (by linarith)]
  exact ⟨by linarith, fun heq =>
    f.magUnits_strictMono.injective (Nat.cast_injective (R := Rat) (by linarith))⟩

/-- The lower neighbour of `q`, no farther than the upper one and even in the middle, is nearest of all. -/
theorem nearestMag_lower (hlo : (f.magUnits m : Rat) ≤ q) (hhi : q ≤ f.magUnits (m + 1))
    (hle : q - f.magUnits m ≤ f.magUnits (m + 1) - q)
    (heven : q - f.magUnits m = f.magUnits (m + 1) - q → m % 2 = 0) : f.NearestMag q m := by
  intro n
  rcases le_or_gt n m with h | h
  · obtain ⟨hd, heq⟩ := f.dist_le_of_le_of_le_value hlo h
    exact ⟨hd, fun e => .inl (heq e)⟩
  · obtain ⟨hd, -⟩ := f.dist_le_of_ge_of_value_le hhi h
    rw [abs_of_nonneg (by linarith)] at hd
    rw [abs_of_nonpos (by linarith)]
    exact ⟨by linarith, fun e => .inr (heven (by linarith))⟩

/-- The upper neighbour of `q`, no farther than the lower one and even in the middle, is nearest of all. -/
theorem nearestMag_upper (hlo : (f.magUnits m : Rat) ≤ q) (hhi : q ≤ f.magUnits (m + 1))
    (hle : f.magUnits (m + 1) - q ≤ q - f.magUnits m)
    (heven : f.magUnits (m + 1) - q = q - f.magUnits m → (m + 1) % 2 = 0) :
    f.NearestMag q (m + 1) := by
  intro n
  rcases le_or_gt n m with h | h
  · obtain ⟨hd, -⟩ := f.dist_le_of_le_of_le_value hlo h
    rw [abs_of_nonpos (by linarith)] at hd
    rw [abs_of_nonneg (by linarith)]
    exact ⟨by linarith, fun e => .inr (heven (by linarith))⟩
  · obtain ⟨hd, heq⟩ := f.dist_le_of_ge_of_value_le hhi h
    exact ⟨hd, fun e => .inl (heq e)⟩

end Neighbours

/-! ## What `roundMag` computes -/

/-- The place `t` that `roundMag` rounds at is the right one: the significand there has at most
`fracBits + 1` bits, and all of them unless the place is the least. -/
theorem significand_bounds (f : FloatFormat) (n : Nat) :
    (Nat.log2 n + 1 - (f.fracBits + 1) = 0 ∨
      2 ^ f.fracBits ≤ n / 2 ^ (Nat.log2 n + 1 - (f.fracBits + 1))) ∧
    n / 2 ^ (Nat.log2 n + 1 - (f.fracBits + 1)) < 2 * 2 ^ f.fracBits := by
  constructor
  · rcases le_or_gt (Nat.log2 n) f.fracBits with h | h
    · exact .inl (by omega)
    · have hn : n ≠ 0 := by rintro rfl; simp at h
      rw [Nat.le_div_iff_mul_le (by positivity), ← pow_add]
      exact .inr ((Nat.pow_le_pow_right (by omega) (by omega)).trans (Nat.log2_self_le hn))
  · rw [Nat.div_lt_iff_lt_mul (by positivity), ← Nat.pow_succ', ← pow_add]
    exact Nat.lt_log2_self.trans_le (Nat.pow_le_pow_right (by omega) (by omega))

/-- The parity of a field is that of its significand. -/
theorem place_mod_two {f : FloatFormat} (hf : f.fracBits ≠ 0) (t k : Nat) :
    (t * 2 ^ f.fracBits + k) % 2 = k % 2 := by
  have : 2 ∣ t * 2 ^ f.fracBits := Dvd.dvd.mul_left (dvd_pow_self 2 hf) t
  omega

/-- The quotient lies between the fields of the significands `num / d` and `num / d + 1` at the place
`2 ^ t`, and the remainder says how far from each. -/
theorem distance_to_neighbours (f : FloatFormat) (num : Nat) {den t : Nat} (hden : 0 < den)
    (hlo : t = 0 ∨ 2 ^ f.fracBits ≤ num / (den * 2 ^ t))
    (hhi : num / (den * 2 ^ t) < 2 * 2 ^ f.fracBits) :
    (num : Rat) / den - f.magUnits (t * 2 ^ f.fracBits + num / (den * 2 ^ t)) =
      (num % (den * 2 ^ t) : Nat) / den ∧
    (f.magUnits (t * 2 ^ f.fracBits + num / (den * 2 ^ t) + 1) : Rat) - num / den =
      ((den * 2 ^ t : Nat) - (num % (den * 2 ^ t) : Nat)) / den := by
  have hden' : (den : Rat) ≠ 0 := by exact_mod_cast hden.ne'
  have hnum : (num : Rat) =
      (den * 2 ^ t : Nat) * (num / (den * 2 ^ t) : Nat) + (num % (den * 2 ^ t) : Nat) := by
    exact_mod_cast (Nat.div_add_mod num (den * 2 ^ t)).symm
  rw [add_assoc, f.magUnits_place hlo hhi.le, f.magUnits_place (by omega) hhi]
  generalize num / (den * 2 ^ t) = k at hnum
  generalize num % (den * 2 ^ t) = r at hnum
  rw [hnum]
  push_cast
  constructor <;> (field_simp; ring)

/-- `roundMag` takes the field nearest to `num / den` units, ties to even, and cuts it off at the
infinity. -/
theorem exists_nearestMag_roundMag {f : FloatFormat} (hf : f.fracBits ≠ 0) (num : Nat) {den : Nat}
    (hden : 0 < den) :
    ∃ m, f.NearestMag ((num : Rat) / den) m ∧ f.roundMag num den = min m f.infMag := by
  obtain ⟨hlo, hhi⟩ := f.significand_bounds (num / den)
  simp only [roundMag]
  set t := Nat.log2 (num / den) + 1 - (f.fracBits + 1)
  rw [Nat.div_div_eq_div_mul] at hlo hhi
  obtain ⟨hbelow, habove⟩ := f.distance_to_neighbours num hden hlo hhi
  have hden' : (0 : Rat) < den := by exact_mod_cast hden
  have hrd : num % (den * 2 ^ t) < den * 2 ^ t := Nat.mod_lt _ (by positivity)
  set d := den * 2 ^ t
  set k := num / d
  set r := num % d
  have hr0 : (0 : Rat) ≤ r / den := by positivity
  have hdr0 : (0 : Rat) ≤ (d - r) / den :=
    div_nonneg (sub_nonneg.2 (by exact_mod_cast hrd.le)) hden'.le
  split
  case isTrue h =>
    refine ⟨t * 2 ^ f.fracBits + k + 1,
      f.nearestMag_upper (by linarith) (by linarith) ?_ fun heq => ?_, by rw [add_assoc]⟩
    · rw [hbelow, habove, div_le_div_iff_of_pos_right hden', sub_le_iff_le_add]
      exact_mod_cast (by omega : d ≤ r + r)
    · rw [hbelow, habove, div_left_inj' hden'.ne', sub_eq_iff_eq_add] at heq
      have htie : d = r + r := by exact_mod_cast heq
      rw [add_assoc, place_mod_two hf]
      omega
  case isFalse h =>
    refine ⟨t * 2 ^ f.fracBits + k,
      f.nearestMag_lower (by linarith) (by linarith) ?_ fun heq => ?_, rfl⟩
    · rw [hbelow, habove, div_le_div_iff_of_pos_right hden', le_sub_iff_add_le]
      exact_mod_cast (by omega : r + r ≤ d)
    · rw [hbelow, habove, div_left_inj' hden'.ne', eq_sub_iff_add_eq] at heq
      have htie : r + r = d := by exact_mod_cast heq
      rw [place_mod_two hf]
      omega

/-! ## The overflow bound -/

section Overflow

variable {f : FloatFormat} {q : Rat} {m : Nat}

/-- The largest finite magnitude is odd, the infinity's field follows it, and the overflow bound is halfway
between the two. -/
theorem exists_largest_finite (hf : f.fracBits ≠ 0) (he : 2 ≤ f.expBits) :
    ∃ M, f.infMag = M + 1 ∧ M % 2 = 1 ∧
      f.overflowBound * 2 ^ f.scale = ((f.magUnits M : Rat) + f.magUnits (M + 1)) / 2 := by
  obtain ⟨e, hexp⟩ := Nat.exists_eq_add_of_le (Nat.pow_le_pow_right two_pos he : 2 ^ 2 ≤ 2 ^ f.expBits)
  obtain ⟨k, hk⟩ := Nat.exists_eq_add_of_le' (Nat.one_le_two_pow (n := f.fracBits))
  have hkodd : (2 * k + 1) % 2 = 1 := by omega
  refine ⟨(e + 1) * 2 ^ f.fracBits + (2 * k + 1), ?_, by rw [place_mod_two hf, hkodd], ?_⟩
  · rw [infMag, hexp, hk, show 2 ^ 2 + e - 1 = e + 3 by omega]
    ring
  · rw [add_assoc _ _ 1, f.magUnits_place (by omega) (by omega), f.magUnits_place (by omega) (by omega),
      overflowBound, hexp, pow_add 2 f.fracBits, hk, show (k + 1) * 2 ^ 2 - 1 = 4 * k + 3 by omega,
      show 2 ^ 2 + e - 4 = e by omega]
    push_cast
    rw [div_mul_cancel₀ _ (by positivity)]
    ring

/-- Below the overflow bound the nearest field is finite. -/
theorem NearestMag.lt_infMag (h : f.NearestMag q m) (hf : f.fracBits ≠ 0) (he : 2 ≤ f.expBits)
    (hq : q < f.overflowBound * 2 ^ f.scale) : m < f.infMag := by
  obtain ⟨M, hM, -, hbound⟩ := exists_largest_finite hf he
  rw [hM]
  by_contra! hm
  have hmono : (f.magUnits (M + 1) : Rat) ≤ f.magUnits m := by
    exact_mod_cast f.magUnits_strictMono.monotone hm
  have hstep : (f.magUnits M : Rat) < f.magUnits (M + 1) := by
    exact_mod_cast f.magUnits_strictMono (Nat.lt_succ_self M)
  have hcloser : |(f.magUnits M : Rat) - q| < f.magUnits m - q := abs_lt.2 ⟨by linarith, by linarith⟩
  exact absurd ((h M).1.trans_lt hcloser) (le_abs_self _).not_gt

/-- At the overflow bound and above the nearest field is no finite one: halfway, the largest finite
magnitude is the odd one. -/
theorem NearestMag.infMag_le (h : f.NearestMag q m) (hf : f.fracBits ≠ 0) (he : 2 ≤ f.expBits)
    (hq : f.overflowBound * 2 ^ f.scale ≤ q) : f.infMag ≤ m := by
  obtain ⟨M, hM, hodd, hbound⟩ := exists_largest_finite hf he
  rw [hM]
  by_contra! hm
  have hmono : (f.magUnits m : Rat) ≤ f.magUnits M := by
    exact_mod_cast f.magUnits_strictMono.monotone (Nat.lt_succ_iff.1 hm)
  have hstep : (f.magUnits M : Rat) < f.magUnits (M + 1) := by
    exact_mod_cast f.magUnits_strictMono (Nat.lt_succ_self M)
  have hinf : |(f.magUnits (M + 1) : Rat) - q| ≤ q - f.magUnits M := abs_le.2 ⟨by linarith, by linarith⟩
  obtain ⟨hnear, htie⟩ := h (M + 1)
  have hlow := neg_le_abs ((f.magUnits m : Rat) - q)
  have hmM : m = M := f.magUnits_strictMono.injective (Nat.cast_injective (R := Rat) (by linarith))
  have := htie (by linarith)
  omega

end Overflow

/-! ## Signs -/

section Pack

variable {f : FloatFormat} {m : Nat}

theorem infMag_lt (f : FloatFormat) : f.infMag < 2 ^ f.signPos := by
  rw [infMag, signPos, pow_add]
  exact Nat.mul_lt_mul_of_pos_right (Nat.sub_lt (by positivity) one_pos) (by positivity)

theorem pack_lt (sign : Bool) (h : m < 2 ^ f.signPos) : f.pack sign m < 2 ^ (f.signPos + 1) := by
  rw [pack, pow_succ]
  cases sign <;> simp <;> omega

theorem mag_pack (sign : Bool) (h : m < 2 ^ f.signPos) : f.mag (f.pack sign m) = m := by
  cases sign <;> simp [mag, pack, Nat.mod_eq_of_lt h]

theorem neg_pack (sign : Bool) (h : m < 2 ^ f.signPos) : f.neg (f.pack sign m) = sign := by
  cases sign
  · simpa [neg, pack] using Nat.testBit_lt_two_pow h
  · simp [neg, pack, Nat.testBit_two_pow_add_eq, Nat.testBit_lt_two_pow h]

theorem mag_mod_two (hf : f.fracBits ≠ 0) (bits : Nat) : f.mag bits % 2 = bits % 2 :=
  Nat.mod_mod_of_dvd bits (dvd_pow_self 2 (by unfold signPos; omega))

end Pack

/-- The factor that a sign bit stands for. -/
def signFactor (sign : Bool) : Rat := if sign then -1 else 1

@[simp] theorem abs_signFactor (sign : Bool) : |signFactor sign| = 1 := by cases sign <;> simp [signFactor]

theorem signFactor_xor (s t : Bool) : signFactor (s ^^ t) = signFactor s * signFactor t := by
  cases s <;> cases t <;> simp [signFactor]

theorem abs_real (f : FloatFormat) (bits : Nat) :
    |f.real bits| = (f.magUnits (f.mag bits) : Rat) / 2 ^ f.scale := by
  rw [real, ← signFactor, units_eq_magUnits, abs_div, abs_mul, abs_signFactor, one_mul, Nat.abs_cast,
    abs_of_pos (by positivity : (0 : Rat) < 2 ^ f.scale)]

theorem real_eq_signFactor_mul_abs (f : FloatFormat) (bits : Nat) :
    f.real bits = signFactor (f.neg bits) * |f.real bits| := by
  rw [abs_real, real, ← signFactor, units_eq_magUnits, mul_div_assoc]

/-! ## The rounded value -/

/-- Distances of magnitudes, in units and as numbers. -/
theorem abs_magUnits_sub (f : FloatFormat) (bits : Nat) (x : Rat) :
    |(f.magUnits (f.mag bits) : Rat) - |x| * 2 ^ f.scale| = |(|f.real bits| - |x|)| * 2 ^ f.scale := by
  have hs : (0 : Rat) < 2 ^ f.scale := by positivity
  have hsub : (f.magUnits (f.mag bits) : Rat) - |x| * 2 ^ f.scale =
      (|f.real bits| - |x|) * 2 ^ f.scale := by
    rw [abs_real, sub_mul, div_mul_cancel₀ _ hs.ne']
  rw [hsub, abs_mul, abs_of_pos hs]

/-- A finite value of the sign of `x` whose magnitude is nearest to that of `x` is nearest to `x`: a value
of the other sign is no nearer, and as near only if both are zeros. -/
theorem NearestMag.nearestEven {f : FloatFormat} {x : Rat} {r : Nat}
    (h : f.NearestMag (|x| * 2 ^ f.scale) (f.mag r)) (hf : f.fracBits ≠ 0) (hr : f.Finite r)
    (hx : x = signFactor (f.neg r) * |x|) : f.NearestEven x r := by
  have hs : (0 : Rat) < 2 ^ f.scale := by positivity
  have hdist : |f.real r - x| = |(|f.real r| - |x|)| := by
    conv_lhs => rw [f.real_eq_signFactor_mul_abs r, hx, ← mul_sub, abs_mul, abs_signFactor, one_mul]
  have hzero : x = 0 → f.real r = 0 := by
    rintro rfl
    obtain ⟨hle, -⟩ := h 0
    rw [abs_magUnits_sub] at hle
    exact abs_nonpos_iff.1 (le_of_mul_le_mul_right (by simpa using hle) hs)
  refine ⟨hr, fun y _ => ?_⟩
  obtain ⟨hnear, htie⟩ := h (f.mag y)
  rw [abs_magUnits_sub, abs_magUnits_sub, mul_le_mul_iff_left₀ hs, ← hdist] at hnear
  rw [abs_magUnits_sub, abs_magUnits_sub, mul_left_inj' hs.ne', ← hdist] at htie
  have hy : |(|f.real y| - |x|)| ≤ |f.real y - x| := abs_abs_sub_abs_le_abs_sub _ _
  refine ⟨hnear.trans hy, fun heq => ?_⟩
  rcases htie (le_antisymm hnear (heq ▸ hy)) with hmag | heven
  · left
    have habs : |f.real y| = |f.real r| := by rw [abs_real, abs_real, hmag]
    rcases abs_eq_abs.1 habs with hsame | hopp
    · exact hsame
    · rw [hopp] at heq ⊢
      rcases abs_eq_abs.1 heq with hr0 | hx0
      · linarith
      · rw [hzero (by linarith), neg_zero]
  · exact .inr (by rwa [← mag_mod_two hf])

section Rounding

variable {f : FloatFormat} {x : Rat} {num den : Nat}

/-- Below the overflow bound the rounded magnitude with the sign of `x` is the correct rounding of `x`. -/
theorem pack_roundMag_nearestEven (hf : f.fracBits ≠ 0) (he : 2 ≤ f.expBits) (hden : 0 < den)
    {sign : Bool} (hx : x = signFactor sign * |x|) (hq : |x| * 2 ^ f.scale = num / den)
    (hlt : |x| < f.overflowBound) :
    f.roundMag num den < f.infMag ∧ f.NearestEven x (f.pack sign (f.roundMag num den)) := by
  obtain ⟨m, hm, hround⟩ := exists_nearestMag_roundMag hf num hden
  rw [← hq] at hm
  have hfin : m < f.infMag := hm.lt_infMag hf he (mul_lt_mul_of_pos_right hlt (by positivity))
  have hsig : m < 2 ^ f.signPos := hfin.trans f.infMag_lt
  rw [hround, min_eq_left hfin.le]
  refine ⟨hfin, NearestMag.nearestEven ?_ hf ⟨pack_lt sign hsig, ?_⟩ ?_⟩
  · rwa [mag_pack sign hsig]
  · rwa [mag_pack sign hsig]
  · rwa [neg_pack sign hsig]

/-- At the overflow bound and above the rounded magnitude is the infinity. -/
theorem roundMag_eq_infMag (hf : f.fracBits ≠ 0) (he : 2 ≤ f.expBits) (hden : 0 < den)
    (hq : |x| * 2 ^ f.scale = num / den) (hle : f.overflowBound ≤ |x|) :
    f.roundMag num den = f.infMag := by
  obtain ⟨m, hm, hround⟩ := exists_nearestMag_roundMag hf num hden
  rw [← hq] at hm
  rw [hround, min_eq_right (hm.infMag_le hf he (mul_le_mul_of_nonneg_right hle (by positivity)))]

end Rounding

/-! ## The quotient -/

section Quotient

variable {f : FloatFormat} {a b : Nat}

theorem div_of_finite (ha : f.Finite a) (hb : f.Finite b) (hb0 : f.isZero b = false) :
    f.div a b = some (f.pack (f.neg a ^^ f.neg b) (f.roundMag (f.units a * 2 ^ f.scale) (f.units b))) := by
  obtain ⟨-, hafin⟩ := ha
  obtain ⟨-, hbfin⟩ := hb
  simp [div, isNaN, isInf, hb0, hafin.not_gt, hbfin.not_gt, hafin.ne, hbfin.ne]

theorem units_pos (hb0 : f.isZero b = false) : 0 < f.units b := by
  rw [units_eq_magUnits]
  exact f.magUnits_pos (by simpa [isZero] using hb0)

/-- The sign of the exact quotient is the XOR of the signs. -/
theorem real_div_eq_signFactor_mul_abs (f : FloatFormat) (a b : Nat) :
    f.real a / f.real b = signFactor (f.neg a ^^ f.neg b) * |f.real a / f.real b| := by
  have hinv : (signFactor (f.neg b))⁻¹ = signFactor (f.neg b) := by cases f.neg b <;> simp [signFactor]
  conv_lhs => rw [f.real_eq_signFactor_mul_abs a, f.real_eq_signFactor_mul_abs b]
  rw [signFactor_xor, abs_div, mul_div_mul_comm, div_eq_mul_inv (signFactor _), hinv]

/-- The exact quotient in units is the fraction that `div` rounds. -/
theorem abs_real_div_mul (f : FloatFormat) (a b : Nat) :
    |f.real a / f.real b| * 2 ^ f.scale = ((f.units a * 2 ^ f.scale : Nat) : Rat) / f.units b := by
  rw [abs_div, abs_real, abs_real, div_div_div_cancel_right₀ (by positivity), units_eq_magUnits,
    units_eq_magUnits]
  push_cast
  ring

end Quotient

end FloatFormat

/-- A pattern of the sign bit and a magnitude up to the infinity's is 64 bits wide. -/
theorem toNat_pack_binary64 (sign : Bool) {m : Nat} (h : m ≤ binary64.infMag) :
    (BitVec.ofNat 64 (binary64.pack sign m)).toNat = binary64.pack sign m :=
  Nat.mod_eq_of_lt (FloatFormat.pack_lt sign (h.trans_lt binary64.infMag_lt))

theorem f64div_of_finite {a b : DWord} (ha : binary64.Finite a.toNat) (hb : binary64.Finite b.toNat)
    (hb0 : binary64.isZero b.toNat = false) :
    f64div a b = some (BitVec.ofNat 64 (binary64.pack (binary64.neg a.toNat ^^ binary64.neg b.toNat)
      (binary64.roundMag (binary64.units a.toNat * 2 ^ binary64.scale) (binary64.units b.toNat)))) := by
  rw [f64div, FloatFormat.div_of_finite ha hb hb0, Option.map_some]

/-- Settles O19: `f64div` of finite values is `roundMag` of the exact quotient with the XOR of the signs, and
`roundMag` rounds correctly (`pack_roundMag_nearestEven`, `roundMag_eq_infMag`). -/
theorem divisionIsCorrectlyRounded : Obligations.DivisionIsCorrectlyRounded := by
  unfold Obligations.DivisionIsCorrectlyRounded
  intro a b ha hb hb0
  have hf : binary64.fracBits ≠ 0 := by decide
  have he : 2 ≤ binary64.expBits := by decide
  have hden := FloatFormat.units_pos hb0
  have hq := binary64.abs_real_div_mul a.toNat b.toNat
  have hsign := binary64.real_div_eq_signFactor_mul_abs a.toNat b.toNat
  rw [f64div_of_finite ha hb hb0]
  constructor
  · intro hlt
    obtain ⟨hfin, hnear⟩ := FloatFormat.pack_roundMag_nearestEven hf he hden hsign hq hlt
    refine ⟨_, rfl, ?_⟩
    rw [toNat_pack_binary64 _ hfin.le]
    exact ⟨hnear, FloatFormat.neg_pack _ (hfin.trans binary64.infMag_lt)⟩
  · intro hle
    rw [FloatFormat.roundMag_eq_infMag hf he hden hq hle]

end Sys2Proof.Machine
end

section
/-! PROOFS. What a step can do, once: `StepEffect` names the effects with the agent step that each takes,
and `stepEffect_of_step` says that a step that goes on has one of them. -/

namespace Sys2Proof.Machine

/-! ## Host writes by offset -/

/-- The offset of a configuration register (10_state.md R30). -/
def ConfigReg.offset : ConfigReg → Offset
  | .sampleRate => sampleRateOffset
  | .freqLo => freqLoOffset
  | .freqHi => freqHiOffset
  | .fpb => fpbOffset

/-- The offsets at which a host write is not ignored: CMD and the configuration registers
(42_control.md R146). -/
def writableOffsets : List Offset :=
  [cmdOffset, sampleRateOffset, freqLoOffset, freqHiOffset, fpbOffset]

@[simp] theorem ConfigReg.target_offset (r : ConfigReg) : target r.offset = .config r := by
  cases r <;> rfl

@[simp] theorem ConfigReg.aligned_offset (r : ConfigReg) : Offset.aligned r.offset = true := by
  cases r <;> rfl

theorem ConfigReg.exists_offset_eq {off : Offset}
    (h : off ∈ [sampleRateOffset, freqLoOffset, freqHiOffset, fpbOffset]) : ∃ r, off = ConfigReg.offset r := by
  simp only [List.mem_cons, List.not_mem_nil, or_false] at h
  rcases h with h | h | h | h
  · exact ⟨.sampleRate, h⟩
  · exact ⟨.freqLo, h⟩
  · exact ⟨.freqHi, h⟩
  · exact ⟨.fpb, h⟩

/-- Only its own offset names a configuration register, among the aligned ones. -/
theorem target_config {off : Offset} {r : ConfigReg} (ha : Offset.aligned off = true)
    (h : target off = .config r) : off = r.offset := by
  rw [Offset.aligned_iff] at ha
  by_cases hw : 0x40000 ≤ off.toNat
  · rw [target_lut hw] at h; cases h
  · rw [target_register (by omega)] at h
    have hindex : off.toNat / 4 = r.offset.toNat / 4 := by
      split at h <;> cases h <;> assumption
    have hr := (Offset.aligned_iff _).1 r.aligned_offset
    exact BitVec.eq_of_toNat_eq (by omega)

theorem ConfigReg.offset_mem_writableOffsets (r : ConfigReg) : r.offset ∈ writableOffsets := by
  cases r <;> decide

/-- An aligned write outside CMD and the configuration registers is ignored (42_control.md R146). -/
theorem execWr_ignored {off : Offset} (v : Word) (s : State) (ha : Offset.aligned off = true)
    (h : off ∉ writableOffsets) : execWr off v s = .next s := by
  rw [execWr_aligned v s ha]
  cases ht : target off with
  | cmd => exact absurd (target_cmd ha ht ▸ List.mem_cons_self) h
  | config r => exact absurd (target_config ha ht ▸ r.offset_mem_writableOffsets) h
  | _ => rfl

/-! ## Buffers -/

/-- FRAME completes only with both phases in range. -/
theorem State.phases_of_modulate {s t : State} {f : Frame} (h : s.modulate f = .next t) :
    s.phaseL.toNat < s.length.toNat ∧ s.phaseR.toNat < s.length.toNat := by
  by_contra hc
  simp [State.modulate_fault hc] at h

/-- Where the phases of `s` are in range, `l` and `r` are those `n` frames on (41_modulation_engine.md R123). -/
def State.PhasesOn (s : State) (n : Nat) (l r : Word) : Prop :=
  s.phaseL.toNat < s.length.toNat ∧ s.phaseR.toNat < s.length.toNat →
    l = BitVec.ofNat 32 ((s.phaseL.toNat + n) % s.length.toNat) ∧
    r = BitVec.ofNat 32 ((s.phaseR.toNat + n) % s.length.toNat)

/-- A frame loop that completes writes the output, the phases and the draw count, and nothing else. -/
theorem modulateAll_next {fs : List Frame} {s t : State} (h : modulateAll fs s = .next t) :
    ∃ outs l r d, t = { s with framesOut := outs, phaseL := l, phaseR := r, nanDraws := d } ∧
      s.PhasesOn fs.length l r := by
  by_cases hin : s.phaseL.toNat < s.length.toNat ∧ s.phaseR.toNat < s.length.toNat
  · obtain ⟨outs, d, hall, -⟩ := modulateAll_spec fs s hin
    rw [hall] at h
    exact ⟨_, _, _, d, (Host.Outcome.next.inj h).symm, fun _ => ⟨rfl, rfl⟩⟩
  · cases fs with
    | nil =>
      cases h
      exact ⟨s.framesOut, s.phaseL, s.phaseR, s.nanDraws, rfl, fun hc => absurd hc hin⟩
    | cons f fs => simp [modulateAll, State.modulate_fault hin] at h

/-- What a BUFFER writes: the output frames with CONTINUE, the phases and the draw count. -/
def State.afterBuffer (s : State) (outs : List Frame) (l r : Word) (d : Nat) : State :=
  { s with
    framesOut := outs
    bufferResult := some continueCode
    phaseL := l
    phaseR := r
    nanDraws := d }

@[simp] theorem State.afterBuffer_running (s : State) (outs : List Frame) (l r : Word) (d : Nat) :
    (s.afterBuffer outs l r d).running = s.running := rfl
@[simp] theorem State.afterBuffer_tableValid (s : State) (outs : List Frame) (l r : Word) (d : Nat) :
    (s.afterBuffer outs l r d).tableValid = s.tableValid := rfl
@[simp] theorem State.afterBuffer_err (s : State) (outs : List Frame) (l r : Word) (d : Nat) :
    (s.afterBuffer outs l r d).err = s.err := rfl
@[simp] theorem State.afterBuffer_length (s : State) (outs : List Frame) (l r : Word) (d : Nat) :
    (s.afterBuffer outs l r d).length = s.length := rfl
@[simp] theorem State.afterBuffer_lut (s : State) (outs : List Frame) (l r : Word) (d : Nat) :
    (s.afterBuffer outs l r d).lut = s.lut := rfl
@[simp] theorem State.afterBuffer_lutEpoch (s : State) (outs : List Frame) (l r : Word) (d : Nat) :
    (s.afterBuffer outs l r d).lutEpoch = s.lutEpoch := rfl

/-- A BUFFER that completes was admitted, and writes what `State.afterBuffer` says. -/
theorem execBuffer_next {fs : List Frame} {s t : State} (h : execBuffer fs s = .next t) :
    s.running = true ∧ ∃ outs l r d, t = s.afterBuffer outs l r d ∧
      s.PhasesOn fs.length l r := by
  cases ha : s.admits fs.length with
  | false => simp [execBuffer_refused ha] at h
  | true =>
    refine ⟨((s.admits_iff _).1 ha).1, ?_⟩
    rw [execBuffer_admitted ha] at h
    cases hm : modulateAll fs s.openOutput with
    | next u =>
      rw [hm] at h
      cases h
      obtain ⟨outs, l, r, d, rfl, hphase⟩ := modulateAll_next hm
      exact ⟨outs, l, r, d, rfl, hphase⟩
    | fault e => simp [hm] at h
    | refused e => simp [hm] at h

/-! ## Steps -/

/-- The next agent step is a host access that decodes to `i`. -/
def State.Carries (s : State) (rest : List Arrival) (i : Instr) : Prop :=
  ∃ w, s.pending = .host w :: rest ∧ decode (.bus w) = .ok i

/-- The effects of a step that goes on, from `s`, each with the agent step it takes. -/
inductive StepEffect (s : State) : State → Prop
  | idle (hp : s.pending = []) : StepEffect s s
  | reset {rest} (hp : s.pending = .reset :: rest) : StepEffect s (s.setPending rest).performReset
  | read {rest off} (v : Word) (hc : s.Carries rest (.rd off)) :
      StepEffect s ((s.setPending rest).setReadData v)
  | ignoredWrite {rest off v} (hc : s.Carries rest (.wr off v)) : StepEffect s (s.setPending rest)
  | errorCode {rest off v} (c : ErrCode) (hc : s.Carries rest (.wr off v)) (hoff : off ∈ writableOffsets) :
      StepEffect s ((s.setPending rest).setErr c)
  | configure {rest off v} (r : ConfigReg) (hc : s.Carries rest (.wr off v)) (hoff : off ∈ writableOffsets)
      (hstopped : s.running = false) :
      StepEffect s (((s.setPending rest).setConfig r v).setErr .ok)
  | build {rest} {L : Nat} (hc : s.Carries rest (.wr cmdOffset 1#32)) (hstopped : s.running = false)
      (hpos : 1 ≤ L) (hfits : L ≤ s.params.lutDepthMax) :
      StepEffect s ((((s.setPending rest).loadTable L).setPhases 0#32 0#32).setErr .ok)
  | start {rest} (hc : s.Carries rest (.wr cmdOffset 2#32)) (hstopped : s.running = false)
      (htable : s.tableValid = true) (hfpb : 1 ≤ s.fpb.toNat ∧ s.fpb.toNat ≤ s.params.fpbMax) :
      StepEffect s
        (((((s.setPending rest).setFpbActive s.fpb).setPhases 0#32 0#32).setRunning true).setErr .ok)
  | stop {rest} (hc : s.Carries rest (.wr cmdOffset 3#32)) :
      StepEffect s (((s.setPending rest).setRunning false).setErr .ok)
  | buffer {ws rest} {n : Nat} {l r : Word} (outs : List Frame) (d : Nat)
      (hp : s.pending = .stream ws :: rest) (hrunning : s.running = true) (hphase : s.PhasesOn n l r) :
      StepEffect s ((s.setPending rest).afterBuffer outs l r d)

/-- The effects of a host write that completes. -/
theorem stepEffect_of_execWr {s t : State} {rest : List Arrival} {off : Offset} {v : Word}
    (hc : s.Carries rest (.wr off v)) (h : execWr off v (s.setPending rest) = .next t) :
    StepEffect s t := by
  have ha := execWr_next_aligned h
  by_cases hoff : off ∈ writableOffsets
  · rcases execWr_cases off v (s.setPending rest) with hf | hn | ⟨c, he⟩ | ⟨r, hr, hcfg⟩ |
        ⟨ht, rfl, hr, L, -, hpos, hfits, hb⟩ | ⟨ht, rfl, hr, htable, hfpb, hs⟩ | ⟨ht, rfl, hs⟩
    · rw [hf] at h; cases h
    · rw [hn] at h; cases h; exact .ignoredWrite hc
    · rw [he] at h; cases h; exact .errorCode c hc hoff
    · rw [hcfg] at h; cases h; exact .configure r hc hoff hr
    · obtain rfl := target_cmd ha ht
      rw [hb] at h; cases h; exact .build hc hr hpos hfits
    · obtain rfl := target_cmd ha ht
      rw [hs] at h; cases h
      exact .start hc hr htable ((State.fpbLegal_iff _).1 hfpb)
    · obtain rfl := target_cmd ha ht
      rw [hs] at h; cases h; exact .stop hc
  · rw [execWr_ignored v _ ha hoff] at h
    cases h
    exact .ignoredWrite hc

/-- A step that goes on has one of the effects. -/
theorem stepEffect_of_step {s t : State} (h : step s = .next t) : StepEffect s t := by
  rcases step_next_cases h with ⟨hp, rfl⟩ | ⟨rest, hp, rfl⟩ | ⟨w, rest, off, hp, hd, hr⟩ |
    ⟨w, rest, off, v, hp, hd, hw⟩ | ⟨ws, rest, fs, hp, -, hb⟩
  · exact .idle hp
  · exact .reset hp
  · obtain ⟨v, rfl⟩ := execRd_next hr
    exact .read v ⟨w, hp, hd⟩
  · exact stepEffect_of_execWr ⟨w, hp, hd⟩ hw
  · obtain ⟨hrunning, outs, l, r, d, rfl, hphase⟩ := execBuffer_next hb
    exact .buffer outs d hp hrunning hphase

end Sys2Proof.Machine
end

section
/-! PROOFS. The invariant, the table rule and the reset values (10_state.md R24, R25, R41, R46, R48). -/

namespace Sys2Proof.Machine

/-! ## Reset -/

theorem State.atReset_of_reset_values {t : State} (h : t = { State.reset with
    pending := t.pending, nanDraws := t.nanDraws, lutEpoch := t.lutEpoch, params := t.params }) :
    t.AtReset := by
  rw [h]
  exact ⟨rfl, rfl, rfl, rfl, rfl, rfl, rfl, rfl, rfl, rfl, fun _ => rfl, fun _ => rfl⟩

/-- Settles O1: both states are `State.reset` but for fields that are no element of R46. -/
theorem resetSetsEveryElement : Obligations.ResetSetsEveryElement := by
  unfold Obligations.ResetSetsEveryElement
  exact ⟨State.atReset_of_reset_values rfl,
    fun _ _ hp => ⟨_, step_reset hp, State.atReset_of_reset_values rfl⟩⟩

/-- A reset meets the invariant whatever the state before it, for legal parameters. -/
theorem State.inv_performReset {s : State} (h : s.params.Legal) : s.performReset.Inv := by
  refine ⟨h, ⟨nofun, fun _ => ⟨rfl, rfl⟩, rfl⟩, ⟨?_, fun _ => rfl, nofun⟩, ⟨?_, Nat.le_refl 0⟩,
    Nat.zero_le 7⟩
  · simp [State.reset]
  · simp [State.reset, Memory.wf]

/-- Settles O38: the reset values are concrete, and LENGTH 0 leaves the table rule nothing to say. -/
theorem resetMeetsTheInvariant : Obligations.ResetMeetsTheInvariant := by
  unfold Obligations.ResetMeetsTheInvariant
  exact ⟨by decide, fun i hi => absurd hi (Nat.not_lt_zero i)⟩

/-! ## The invariant -/

theorem ErrCode.bits_le (c : ErrCode) : c.bits.toNat ≤ 7 := by cases c <;> decide

theorem State.Inv.setErr {s : State} (h : s.Inv) (c : ErrCode) : (s.setErr c).Inv :=
  let ⟨hparams, hphase, hflag, hstorage, _⟩ := h
  ⟨hparams, hphase, hflag, hstorage, c.bits_le⟩

/-- No rule of the invariant reads a configuration register. -/
theorem State.Inv.setConfig {s : State} (h : s.Inv) (r : ConfigReg) (v : Word) : (s.setConfig r v).Inv := by
  cases r <;> exact h

/-- The invariant's part on RUNNING, the only one that reads it, holds while stopped. -/
theorem State.Inv.stopped {s : State} (h : s.Inv) : (s.setRunning false).Inv :=
  let ⟨hparams, hphase, ⟨hvalid, hlength, _⟩, hstorage, herr⟩ := h
  ⟨hparams, hphase, ⟨hvalid, hlength, nofun⟩, hstorage, herr⟩

/-- A table length has 32 bits. -/
theorem toNat_tableLength {p : Params} {L : Nat} (hp : p.Legal) (h : L ≤ p.lutDepthMax) :
    (BitVec.ofNat 32 L).toNat = L := by
  obtain ⟨⟨-, hdepth⟩, -⟩ := hp
  exact Nat.mod_eq_of_lt (by omega)

/-- A new table with both phases 0 while stopped. -/
theorem State.Inv.build {s : State} (h : s.Inv) {L : Nat} (hstopped : s.running = false) (hpos : 1 ≤ L)
    (hfits : L ≤ s.params.lutDepthMax) : ((s.loadTable L).setPhases 0#32 0#32).Inv := by
  obtain ⟨hparams, -, -, ⟨hwf, -⟩, herr⟩ := h
  have hL := toNat_tableLength hparams hfits
  refine ⟨hparams, ⟨?_, nofun, rfl⟩, ⟨?_, nofun, ?_⟩, ⟨Memory.wf_writeTable _ _ _ _ hwf hfits, ?_⟩, herr⟩
  · simp [hL]; omega
  · simp [hL]; omega
  · simp [hstopped]
  · simp [hL, Memory.length_writeTable]

/-- A table and a legal FPB make the state a running one with both phases 0. -/
theorem State.Inv.start {s : State} (h : s.Inv) (htable : s.tableValid = true)
    (hfpb : 1 ≤ s.fpb.toNat ∧ s.fpb.toNat ≤ s.params.fpbMax) :
    (((s.setFpbActive s.fpb).setPhases 0#32 0#32).setRunning true).Inv := by
  obtain ⟨hparams, ⟨hrange, -, -⟩, ⟨hvalid, hlength, -⟩, hstorage, herr⟩ := h
  have hpos : 0 < s.length.toNat := Nat.zero_lt_of_lt (hrange htable).1
  exact ⟨hparams, ⟨fun _ => ⟨hpos, hpos⟩, fun _ => ⟨rfl, rfl⟩, rfl⟩,
    ⟨hvalid, hlength, fun _ => ⟨htable, hfpb⟩⟩, hstorage, herr⟩

/-- Phases that a buffer of `n` frames moves on together stay equal and below LENGTH. -/
theorem State.Inv.afterBuffer {s : State} (h : s.Inv) {n : Nat} {l r : Word} (outs : List Frame) (d : Nat)
    (hrunning : s.running = true) (hphase : s.PhasesOn n l r) :
    (s.afterBuffer outs l r d).Inv := by
  obtain ⟨hparams, ⟨hrange, -, heq⟩, hflag, hstorage, herr⟩ := h
  have htable : s.tableValid = true := (hflag.2.2 hrunning).1
  have hin := hrange htable
  obtain ⟨rfl, rfl⟩ := hphase hin
  have hlt : ∀ k, (BitVec.ofNat 32 (k % s.length.toNat)).toNat < s.length.toNat := fun k =>
    (Nat.mod_le _ _).trans_lt (Nat.mod_lt _ (Nat.zero_lt_of_lt hin.1))
  refine ⟨hparams, ⟨fun _ => ⟨hlt _, hlt _⟩, ?_, ?_⟩, hflag, hstorage, herr⟩
  · intro hf
    exact absurd (hf.symm.trans htable) (by decide)
  · show BitVec.ofNat 32 _ = BitVec.ofNat 32 _
    rw [heq]

/-- Settles O39: each effect of a step keeps the invariant. -/
theorem stepKeepsTheInvariant : Obligations.StepKeepsTheInvariant := by
  unfold Obligations.StepKeepsTheInvariant
  intro s t hs h
  cases stepEffect_of_step h with
  | idle _ => exact hs
  | reset _ => exact State.inv_performReset hs.1
  | read _ _ => exact hs
  | ignoredWrite _ => exact hs
  | errorCode c _ _ => exact State.Inv.setErr hs c
  | @configure rest _ v r _ _ _ => exact (State.Inv.setConfig (s := s.setPending rest) hs r v).setErr .ok
  | build _ hstopped hpos hfits => exact (State.Inv.build hs hstopped hpos hfits).setErr .ok
  | start _ _ htable hfpb => exact (State.Inv.start hs htable hfpb).setErr .ok
  | stop _ => exact (State.Inv.stopped hs).setErr .ok
  | buffer outs d _ hrunning hphase => exact State.Inv.afterBuffer hs outs d hrunning hphase

/-! ## The table -/

/-- BUILD fills the table from SINE_ROM (40_table_builder.md R104). -/
theorem State.tableInv_loadTable {s : State} {L : Nat} (hL : (BitVec.ofNat 32 L).toNat = L) :
    (s.loadTable L).TableInv := by
  intro i hi
  have hlen : (s.loadTable L).length.toNat = L := hL
  rw [hlen] at hi ⊢
  exact Memory.read_writeTable_lt _ _ _ _ hi

/-- Settles O40: only BUILD writes the table, and a reset leaves none. -/
theorem stepKeepsTheTable : Obligations.StepKeepsTheTable := by
  unfold Obligations.StepKeepsTheTable
  intro s t hs htab h
  cases stepEffect_of_step h with
  | idle _ => exact htab
  | reset _ => exact fun i hi => absurd hi (Nat.not_lt_zero i)
  | read _ _ => exact htab
  | ignoredWrite _ => exact htab
  | errorCode _ _ _ => exact htab
  | configure r _ _ _ => cases r <;> exact htab
  | build _ _ _ hfits =>
    exact State.tableInv_loadTable (s := s.setPending _) (toNat_tableLength hs.1 hfits)
  | start _ _ _ _ => exact htab
  | stop _ => exact htab
  | buffer _ _ _ _ _ => exact htab

end Sys2Proof.Machine
end

section
/-! PROOFS. Which steps change RUNNING, ERR and the table (10_state.md R27, R28, R29, R36, R42), read off
the effects of a step. -/

namespace Sys2Proof.Machine

/-- Settles O42: of the effects only START writes 1 to RUNNING, and only STOP and reset write 0. -/
theorem onlyStartSetsRunning : Obligations.OnlyStartSetsRunning := by
  unfold Obligations.OnlyStartSetsRunning
  intro s t h
  have heffect := stepEffect_of_step h
  constructor
  · intro hs ht
    cases heffect with
    | start hc _ _ _ =>
      obtain ⟨w, hp, hd⟩ := hc
      exact ⟨w, _, hp, hd, rfl⟩
    | _ => simp [State.reset, hs] at ht
  · intro hs ht
    cases heffect with
    | reset hp => exact .inl ⟨_, hp⟩
    | stop hc =>
      obtain ⟨w, hp, hd⟩ := hc
      exact .inr ⟨w, _, hp, hd⟩
    | _ => simp [hs] at ht

/-- Settles O43: of the effects only reset and a successful BUILD write TABLE_VALID, LENGTH or the LUT. -/
theorem onlyBuildWritesTheTable : Obligations.OnlyBuildWritesTheTable := by
  unfold Obligations.OnlyBuildWritesTheTable
  intro s t h hchange
  cases stepEffect_of_step h with
  | reset hp => exact .inl ⟨⟨_, hp⟩, rfl, rfl⟩
  | build hc hstopped _ _ =>
    obtain ⟨w, hp, hd⟩ := hc
    exact .inr ⟨hstopped, rfl, rfl, w, _, hp, hd⟩
  | _ => simp at hchange

/-- Settles O44: the effects that write ERR are reset and those of a host write at a writable offset. -/
theorem onlyCommandAndConfigurationWritesChangeErr :
    Obligations.OnlyCommandAndConfigurationWritesChangeErr := by
  unfold Obligations.OnlyCommandAndConfigurationWritesChangeErr
  intro s t h hchange
  have written : ∀ {rest off v}, s.Carries rest (.wr off v) → off ∈ writableOffsets →
      ∃ w rest off v, s.pending = .host w :: rest ∧ decode (.bus w) = .ok (.wr off v) ∧
        off ∈ writableOffsets := fun ⟨w, hp, hd⟩ hoff => ⟨w, _, _, _, hp, hd, hoff⟩
  have hcmd : cmdOffset ∈ writableOffsets := List.mem_cons_self
  cases stepEffect_of_step h with
  | reset hp => exact .inl ⟨_, hp⟩
  | errorCode _ hc hoff => exact .inr (written hc hoff)
  | configure _ hc hoff _ => exact .inr (written hc hoff)
  | build hc _ _ _ => exact .inr (written hc hcmd)
  | start hc _ _ _ => exact .inr (written hc hcmd)
  | stop hc => exact .inr (written hc hcmd)
  | _ => exact absurd rfl hchange

end Sys2Proof.Machine
end

section
/-! PROOFS. What the LUT storage holds at and above LENGTH, and what a reset left in it, is observed by no
step (10_state.md R40, R41, R47): every operation does the same with other contents there. -/

namespace Sys2Proof.Machine

/-! ## States that differ in the storage only -/

/-- The state with other LUT contents, written and unspecified. -/
def State.withStorage (s : State) (m : Memory) (e : Nat) : State := { s with lut := m, lutEpoch := e }

@[simp] theorem State.withStorage_running (s : State) (m : Memory) (e : Nat) :
    (s.withStorage m e).running = s.running := rfl
@[simp] theorem State.withStorage_tableValid (s : State) (m : Memory) (e : Nat) :
    (s.withStorage m e).tableValid = s.tableValid := rfl
@[simp] theorem State.withStorage_length (s : State) (m : Memory) (e : Nat) :
    (s.withStorage m e).length = s.length := rfl
@[simp] theorem State.withStorage_phaseL (s : State) (m : Memory) (e : Nat) :
    (s.withStorage m e).phaseL = s.phaseL := rfl
@[simp] theorem State.withStorage_phaseR (s : State) (m : Memory) (e : Nat) :
    (s.withStorage m e).phaseR = s.phaseR := rfl
@[simp] theorem State.withStorage_lut (s : State) (m : Memory) (e : Nat) :
    (s.withStorage m e).lut = m := rfl
@[simp] theorem State.withStorage_buildLength (s : State) (m : Memory) (e : Nat) :
    (s.withStorage m e).buildLength = s.buildLength := rfl
@[simp] theorem State.withStorage_fpbLegal (s : State) (m : Memory) (e : Nat) :
    (s.withStorage m e).fpbLegal = s.fpbLegal := rfl

/-- The storage `m` holds the table of `s`: the entries below LENGTH. -/
def State.SameTable (s : State) (m : Memory) : Prop :=
  ∀ i, i < s.length.toNat → m.read i = s.lut.read i

/-- A step's answer with other LUT contents in its next state. -/
def Result.withStorage (m : Memory) (e : Nat) : Result → Result
  | .next t => .next (t.withStorage m e)
  | .fault f => .fault f
  | .refused x => .refused x

/-- `r'` is `r` but for storage that holds the same table. -/
def SameButStorage (r r' : Result) : Prop :=
  ∃ m e, r' = r.withStorage m e ∧ ∀ t, r = .next t → t.SameTable m

theorem SameButStorage.next {t : State} {m : Memory} (e : Nat) (h : t.SameTable m) :
    SameButStorage (.next t) (.next (t.withStorage m e)) :=
  ⟨m, e, rfl, fun _ ht => Host.Outcome.next.inj ht ▸ h⟩

theorem SameButStorage.fault (f : Fault) : SameButStorage (.fault f) (.fault f) := ⟨[], 0, rfl, nofun⟩

theorem SameButStorage.refused (x : Refusal) : SameButStorage (.refused x) (.refused x) :=
  ⟨[], 0, rfl, nofun⟩

section
variable {s : State} {m : Memory} {e : Nat}

/-- An entry of a table that the storage covers has been written, so no unspecified value is read. -/
theorem State.lutEntry_withStorage (hm : s.SameTable m) (hcover : s.length.toNat ≤ s.lut.length) {i : Nat}
    (hi : i < s.length.toNat) : (s.withStorage m e).lutEntry i = s.lutEntry i := by
  have hread : s.lut.read i = some (s.lut[i]'(hi.trans_le hcover)) := List.getElem?_eq_getElem _
  have hread' : (s.withStorage m e).lut.read i = some (s.lut[i]'(hi.trans_le hcover)) :=
    (hm i hi).trans hread
  rw [State.lutEntry_of_read hread, State.lutEntry_of_read hread']

/-! ## The commands -/

/-- BUILD's operands are not in the storage, and what it writes covers the new table. -/
theorem execBuild_sameButStorage (hm : s.SameTable m) :
    SameButStorage (execBuild s) (execBuild (s.withStorage m e)) := by
  unfold execBuild
  rw [State.withStorage_buildLength, State.withStorage_running]
  cases s.running with
  | true => exact .next e hm
  | false =>
    cases s.buildLength with
    | error c => exact .next e hm
    | ok L =>
      refine .next (m := m.writeTable L (sineRom s.params.sineRom L)) e fun i hi => ?_
      have hiL : i < L := hi.trans_le (Nat.mod_le _ _)
      exact (Memory.read_writeTable_lt _ _ _ _ hiL).trans (Memory.read_writeTable_lt _ _ _ _ hiL).symm

/-- START's checks are not on the storage. -/
theorem execStart_sameButStorage (hm : s.SameTable m) :
    SameButStorage (execStart s) (execStart (s.withStorage m e)) := by
  unfold execStart
  rw [State.withStorage_running, State.withStorage_tableValid, State.withStorage_fpbLegal]
  split
  · exact .next e hm
  · split
    · exact .next e hm
    · split <;> exact .next e hm

theorem cmdWrite_sameButStorage (w : Word) (hm : s.SameTable m) :
    SameButStorage (cmdWrite w s) (cmdWrite w (s.withStorage m e)) := by
  unfold cmdWrite
  dsimp only
  split
  · exact .next e hm
  · split
    · exact .next e hm
    · split
      · exact execBuild_sameButStorage hm
      · split
        · exact execStart_sameButStorage hm
        · exact .next e hm

/-! ## The host port -/

/-- The window shows the table only (10_state.md R40). -/
theorem State.readTarget_withStorage (hm : s.SameTable m) (hcover : s.length.toNat ≤ s.lut.length)
    (x : Target) : (s.withStorage m e).readTarget x = s.readTarget x := by
  cases x with
  | lutWindow i =>
    simp only [State.readTarget, State.lutWindow, State.withStorage_tableValid, State.withStorage_length]
    exact ite_congr rfl (fun hi => State.lutEntry_withStorage hm hcover hi.2) fun _ => rfl
  | _ => rfl

theorem execRd_sameButStorage (off : Offset) (hm : s.SameTable m)
    (hcover : s.length.toNat ≤ s.lut.length) :
    SameButStorage (execRd off s) (execRd off (s.withStorage m e)) := by
  unfold execRd
  rw [State.readTarget_withStorage hm hcover]
  split
  · exact .next e hm
  · exact .fault _

theorem cfgWrite_sameButStorage (r : ConfigReg) (v : Word) (hm : s.SameTable m) :
    SameButStorage (cfgWrite r v s) (cfgWrite r v (s.withStorage m e)) := by
  unfold cfgWrite
  rw [State.withStorage_running]
  split
  · exact .next e hm
  · cases r <;> exact .next e hm

theorem execWr_sameButStorage (off : Offset) (v : Word) (hm : s.SameTable m) :
    SameButStorage (execWr off v s) (execWr off v (s.withStorage m e)) := by
  unfold execWr
  split
  · cases target off with
    | cmd => exact cmdWrite_sameButStorage v hm
    | config r => exact cfgWrite_sameButStorage r v hm
    | _ => exact .next e hm
  · exact .fault _

/-! ## The engine -/

theorem State.mulSample_withStorage (s : State) (a b : Sample) :
    (s.withStorage m e).mulSample a b = ((s.mulSample a b).1, (s.mulSample a b).2.withStorage m e) := by
  cases h : f32mul a b with
  | some r => simp only [State.mulSample_of_some _ h]
  | none => simp only [State.mulSample_of_none _ h]; rfl

/-- FRAME reads two entries of the table. -/
theorem State.modulate_withStorage (f : Frame) (hm : s.SameTable m)
    (hcover : s.length.toNat ≤ s.lut.length) :
    (s.withStorage m e).modulate f = (s.modulate f).withStorage m e := by
  by_cases hin : s.phaseL.toNat < s.length.toNat ∧ s.phaseR.toNat < s.length.toNat
  · unfold State.modulate
    simp only [State.withStorage_phaseL, State.withStorage_phaseR, State.withStorage_length, if_pos hin,
      State.lutEntry_withStorage hm hcover hin.1, State.lutEntry_withStorage hm hcover hin.2,
      State.mulSample_withStorage]
    rfl
  · rw [State.modulate_fault hin]
    exact State.modulate_fault hin

/-- FRAME leaves LENGTH and the storage. -/
theorem State.modulate_table {f : Frame} {t : State} (h : s.modulate f = .next t) :
    t.length = s.length ∧ t.lut = s.lut := by
  obtain ⟨o, d, ho, -⟩ := s.modulate_spec f (State.phases_of_modulate h)
  cases ho.symm.trans h
  exact ⟨rfl, rfl⟩

theorem modulateAll_withStorage (fs : List Frame) (hm : s.SameTable m)
    (hcover : s.length.toNat ≤ s.lut.length) :
    modulateAll fs (s.withStorage m e) = (modulateAll fs s).withStorage m e := by
  induction fs generalizing s with
  | nil => rfl
  | cons f fs ih =>
    simp only [modulateAll, State.modulate_withStorage f hm hcover]
    cases h : s.modulate f with
    | next t =>
      obtain ⟨hlength, hlut⟩ := State.modulate_table h
      exact ih (by simpa only [State.SameTable, hlength, hlut] using hm) (by rwa [hlength, hlut])
    | fault _ => rfl
    | refused _ => rfl

/-- The table of the next state, where it has one, is that of `s`. -/
theorem SameButStorage.of_withStorage {r : Result} (hm : s.SameTable m)
    (h : ∀ t, r = .next t → t.length = s.length ∧ t.lut = s.lut) :
    SameButStorage r (r.withStorage m e) := by
  refine ⟨m, e, rfl, fun t ht => ?_⟩
  obtain ⟨hlength, hlut⟩ := h t ht
  simpa only [State.SameTable, hlength, hlut] using hm

theorem execBuffer_sameButStorage (fs : List Frame) (hm : s.SameTable m)
    (hcover : s.length.toNat ≤ s.lut.length) :
    SameButStorage (execBuffer fs s) (execBuffer fs (s.withStorage m e)) := by
  have hnext : execBuffer fs (s.withStorage m e) = (execBuffer fs s).withStorage m e := by
    cases ha : s.admits fs.length with
    | false =>
      rw [execBuffer_refused ha]
      exact execBuffer_refused ha
    | true =>
      have hall : modulateAll fs (s.withStorage m e).openOutput =
          (modulateAll fs s.openOutput).withStorage m e :=
        modulateAll_withStorage (s := s.openOutput) fs hm hcover
      have ha' : (s.withStorage m e).admits fs.length = true := ha
      rw [execBuffer_admitted ha, execBuffer_admitted ha', hall]
      cases modulateAll fs s.openOutput <;> rfl
  rw [hnext]
  refine .of_withStorage hm fun t ht => ?_
  obtain ⟨-, outs, l, r, d, rfl, -⟩ := execBuffer_next ht
  exact ⟨rfl, rfl⟩

/-! ## Steps -/

theorem exec_sameButStorage (i : Instr) (hm : s.SameTable m) (hcover : s.length.toNat ≤ s.lut.length) :
    SameButStorage (exec i s) (exec i (s.withStorage m e)) := by
  cases i with
  | nop => exact .next e hm
  | build => exact execBuild_sameButStorage hm
  | start => exact execStart_sameButStorage hm
  | stop => exact .next e hm
  | illegalCmd _ _ => exact .next e hm
  | rd off => exact execRd_sameButStorage off hm hcover
  | wr off v => exact execWr_sameButStorage off v hm
  | accessError _ _ off _ => exact .fault _
  | frame left right =>
    show SameButStorage (s.modulate ⟨left, right⟩) ((s.withStorage m e).modulate ⟨left, right⟩)
    rw [State.modulate_withStorage _ hm hcover]
    exact .of_withStorage hm fun t ht => State.modulate_table ht
  | buffer fs => exact execBuffer_sameButStorage fs hm hcover

/-- A reset leaves no table, and any other step executes an instruction or is refused. -/
theorem step_sameButStorage (hm : s.SameTable m) (hcover : s.length.toNat ≤ s.lut.length) :
    SameButStorage (step s) (step (s.withStorage m e)) := by
  have hexec : ∀ rest i, SameButStorage (exec i (s.setPending rest))
      (exec i ((s.withStorage m e).setPending rest)) := fun rest i =>
    exec_sameButStorage (s := s.setPending rest) i hm hcover
  match hp : s.pending with
  | [] =>
    rw [step_idle hp, step_idle (s := s.withStorage m e) hp]
    exact .next e hm
  | .reset :: rest =>
    rw [step_reset hp, step_reset (s := s.withStorage m e) hp]
    exact .next (m := []) (e + 1) fun _ _ => rfl
  | .host w :: rest =>
    rw [step_host hp, step_host (s := s.withStorage m e) hp]
    cases decode (.bus w) with
    | ok i => exact hexec rest i
    | error x => exact .refused _
  | .stream ws :: rest =>
    rw [step_stream hp, step_stream (s := s.withStorage m e) hp]
    cases decode (.buffer ws) with
    | ok i => exact hexec rest i
    | error x => exact .refused _

end

/-- Settles O49: the invariant's storage covers the table, so a step reads only entries that the two storages
share (`step_sameButStorage`). -/
theorem hiddenEntriesAreUnobservable : Obligations.HiddenEntriesAreUnobservable := by
  unfold Obligations.HiddenEntriesAreUnobservable
  intro s m e hinv hm
  obtain ⟨-, -, -, ⟨-, hcover⟩, -⟩ := hinv
  obtain ⟨m', e', hstep, htable⟩ := step_sameButStorage (e := e) hm hcover
  cases h : step s with
  | next t =>
    rw [h] at hstep
    exact ⟨t.withStorage m' e', hstep, rfl, htable t h⟩
  | fault _ =>
    rw [h] at hstep
    exact hstep
  | refused _ =>
    rw [h] at hstep
    exact hstep

end Sys2Proof.Machine
end

section
/-! PROOFS. What a read returns after a configuration write, and the fields of STATUS (10_state.md R32 to
R35). -/

namespace Sys2Proof.Machine

/-! ## Configuration registers -/

/-- Read after write: a write to one half of FREQ leaves the other. -/
theorem State.config_setConfig (s : State) (r r' : ConfigReg) (v : Word) :
    (s.setConfig r v).config r' = if r' = r then v else s.config r' := by
  have hlo (hi lo : Word) : (cat 64 hi lo).extractLsb' 0 32 = lo := by
    rw [cat_extract_low, BitVec.extractLsb'_eq_self] <;> omega
  have hhi (hi lo : Word) : (cat 64 hi lo).extractLsb' 32 32 = hi := by
    rw [cat_extract_high, BitVec.extractLsb'_eq_self] <;> omega
  cases r <;> cases r' <;> simp [State.config, hlo, hhi]

@[simp] theorem State.config_setErr (s : State) (c : ErrCode) (r : ConfigReg) :
    (s.setErr c).config r = s.config r := by
  cases r <;> rfl

theorem exec_rd_config (r : ConfigReg) (s : State) :
    exec (.rd r.offset) s = .next (s.setReadData (s.config r)) := by
  show execRd r.offset s = _
  rw [execRd_aligned s r.aligned_offset, r.target_offset]
  rfl

theorem exec_wr_config (r : ConfigReg) (v : Word) {s : State} (hstopped : s.running = false) :
    exec (.wr r.offset v) s = .next ((s.setConfig r v).setErr .ok) := by
  show execWr r.offset v s = _
  rw [execWr_aligned v s r.aligned_offset, r.target_offset]
  simp [writeTarget, cfgWrite, hstopped]

/-- Settles O34: both offsets name configuration registers, and a read returns the register
(`State.config_setConfig`). -/
theorem configurationReadsBack : Obligations.ConfigurationReadsBack := by
  unfold Obligations.ConfigurationReadsBack
  intro s off off' v hoff hoff' hstopped
  obtain ⟨r, rfl⟩ := ConfigReg.exists_offset_eq hoff
  obtain ⟨r', rfl⟩ := ConfigReg.exists_offset_eq hoff'
  refine ⟨_, s.config r', exec_wr_config r v hstopped, ?_, fun hne => ⟨exec_rd_config r' s, ?_⟩⟩
  · rw [exec_rd_config, State.config_setErr, State.config_setConfig, if_pos rfl]
    rfl
  · have hr : r' ≠ r := fun h => hne (congrArg _ h)
    rw [exec_rd_config, State.config_setErr, State.config_setConfig, if_neg hr]
    rfl

/-! ## STATUS -/

theorem State.statusWord_err (s : State) : s.statusWord.extractLsb' 8 4 = s.err := by
  unfold State.statusWord
  rw [cat_extract_low, cat_extract_high, BitVec.extractLsb'_eq_self] <;> omega

theorem State.statusWord_zeros_high (s : State) : s.statusWord.extractLsb' 12 20 = 0#20 := by
  unfold State.statusWord
  rw [cat_extract_high, BitVec.extractLsb'_eq_self] <;> omega

theorem State.statusWord_zeros_low (s : State) : s.statusWord.extractLsb' 2 6 = 0#6 := by
  unfold State.statusWord
  rw [cat_extract_low, cat_extract_low, cat_extract_high, BitVec.extractLsb'_eq_self] <;> omega

/-- Bits 1:0 of STATUS. -/
theorem State.statusWord_flags (s : State) : s.statusWord.extractLsb' 0 2 =
    cat 2 (BitVec.ofBool s.tableValid) (BitVec.ofBool s.running) := by
  unfold State.statusWord
  rw [cat_extract_low, cat_extract_low, cat_extract_low, BitVec.extractLsb'_eq_self] <;> omega

theorem State.statusWord_running (s : State) : s.statusWord.getLsbD 0 = s.running := by
  calc s.statusWord.getLsbD 0 = (s.statusWord.extractLsb' 0 2).getLsbD 0 := by simp
    _ = s.running := by
      rw [State.statusWord_flags]
      cases s.running <;> cases s.tableValid <;> rfl

theorem State.statusWord_tableValid (s : State) : s.statusWord.getLsbD 1 = s.tableValid := by
  calc s.statusWord.getLsbD 1 = (s.statusWord.extractLsb' 0 2).getLsbD 1 := by simp
    _ = s.tableValid := by
      rw [State.statusWord_flags]
      cases s.running <;> cases s.tableValid <;> rfl

/-- Settles O32: a read of STATUS returns `State.statusWord`, whose fields are the lemmas above. -/
theorem statusFields : Obligations.StatusFields := by
  unfold Obligations.StatusFields
  intro s v
  exact ⟨⟨s.statusWord, rfl, s.statusWord_running, s.statusWord_tableValid, s.statusWord_zeros_low,
    s.statusWord_err, s.statusWord_zeros_high⟩, rfl⟩

end Sys2Proof.Machine
end

section
/-! PROOFS. What a step may change while RUNNING is 1 and what it takes off the list (20_memory.md R60, R61,
R70), read off the effects of a step. -/

namespace Sys2Proof.Machine

/-- Settles O45: the effects that write the table or the configuration are reset and those of
a stopped block. -/
theorem runningLocksTableAndConfiguration : Obligations.RunningLocksTableAndConfiguration := by
  unfold Obligations.RunningLocksTableAndConfiguration
  intro s t h hrunning hnoreset
  cases stepEffect_of_step h with
  | reset hp => exact absurd hp (hnoreset _)
  | configure _ _ _ hstopped => simp [hrunning] at hstopped
  | build _ hstopped _ _ => simp [hrunning] at hstopped
  | start _ hstopped _ _ => simp [hrunning] at hstopped
  | _ => exact ⟨rfl, rfl, rfl, rfl, rfl, rfl, rfl, rfl⟩

/-- Settles O46: while running only a buffer writes the phases; while stopped no buffer is admitted, and BUILD
and START write 0 to both. -/
theorem onlyBuffersMoveThePhases : Obligations.OnlyBuffersMoveThePhases := by
  unfold Obligations.OnlyBuffersMoveThePhases
  intro s t h hnoreset
  have heffect := stepEffect_of_step h
  constructor
  · intro hrunning hnobuffer
    cases heffect with
    | reset hp => exact absurd hp (hnoreset _)
    | configure _ _ _ hstopped => simp [hrunning] at hstopped
    | build _ hstopped _ _ => simp [hrunning] at hstopped
    | start _ hstopped _ _ => simp [hrunning] at hstopped
    | buffer _ _ hp _ _ => exact absurd hp (hnobuffer _ _)
    | _ => exact ⟨rfl, rfl⟩
  · intro hstopped
    cases heffect with
    | reset hp => exact absurd hp (hnoreset _)
    | configure _ _ _ _ => exact .inl (by simp)
    | build _ _ _ _ => exact .inr ⟨rfl, rfl⟩
    | start _ _ _ _ => exact .inr ⟨rfl, rfl⟩
    | buffer _ _ _ hrunning _ => simp [hstopped] at hrunning
    | _ => exact .inl ⟨rfl, rfl⟩

/-- The agent steps after the host access that the list carries next. -/
theorem State.Carries.pending_tail {s : State} {rest : List Arrival} {i : Instr} (h : s.Carries rest i) :
    s.pending.tail = rest := by
  obtain ⟨w, hp, -⟩ := h
  rw [hp, List.tail_cons]

/-- Settles O47: each effect is one on the state without the next agent step. -/
theorem stepTakesOneArrival : Obligations.StepTakesOneArrival := by
  unfold Obligations.StepTakesOneArrival
  intro s t h
  cases stepEffect_of_step h with
  | idle hp => exact ⟨by rw [hp, List.tail_nil], rfl⟩
  | reset hp => exact ⟨by rw [hp]; rfl, rfl⟩
  | read _ hc => exact ⟨hc.pending_tail.symm, rfl⟩
  | ignoredWrite hc => exact ⟨hc.pending_tail.symm, rfl⟩
  | errorCode _ hc _ => exact ⟨hc.pending_tail.symm, rfl⟩
  | configure _ hc _ _ => simp [hc.pending_tail]
  | build hc _ _ _ => exact ⟨hc.pending_tail.symm, rfl⟩
  | start hc _ _ _ => exact ⟨hc.pending_tail.symm, rfl⟩
  | stop hc => exact ⟨hc.pending_tail.symm, rfl⟩
  | buffer _ _ hp _ _ => exact ⟨by rw [hp]; rfl, rfl⟩

/-- Settles O3: a clause per agent step, by what a step does with it and what it decodes to. -/
theorem stepRunsTheDecodedInstruction : Obligations.StepRunsTheDecodedInstruction := by
  unfold Obligations.StepRunsTheDecodedInstruction
  refine ⟨fun _ => step_idle, ?_, ?_, ?_, ?_⟩
  · intro s w rest i hp hd
    rw [step_host hp, hd]
  · intro s ws rest i hp hd
    rw [step_stream hp, hd]
  · intro s w rest e hp hd
    rw [step_host hp, hd]
  · intro s ws rest e hp hd
    rw [step_stream hp, hd]

end Sys2Proof.Machine
end

section
/-! PROOFS. The bytes of a serialised unit (20_memory.md R62, R63): their count, their order, and that they
spell the unit. -/

namespace Sys2Proof

/-! ## Bytes of a number -/

@[simp] theorem length_bytesOfNat (n v : Nat) : (bytesOfNat n v).length = n := by
  induction n generalizing v with
  | zero => rfl
  | succ n ih => simp [bytesOfNat, ih]

/-- The low bytes go out first, and then those of the quotient. -/
theorem bytesOfNat_add (m n v : Nat) :
    bytesOfNat (m + n) v = bytesOfNat m v ++ bytesOfNat n (v / 256 ^ m) := by
  induction m generalizing v with
  | zero => simp [bytesOfNat]
  | succ m ih =>
    rw [Nat.succ_add, bytesOfNat, bytesOfNat, ih, List.cons_append, Nat.div_div_eq_div_mul, pow_succ']

/-- What lies above the bytes does not show in them. -/
theorem bytesOfNat_mul_add (n k v : Nat) : bytesOfNat n (k * 256 ^ n + v) = bytesOfNat n v := by
  induction n generalizing v with
  | zero => rfl
  | succ n ih =>
    have hlow : BitVec.ofNat 8 (k * 256 ^ (n + 1) + v) = BitVec.ofNat 8 v := by
      rw [pow_succ, ← mul_assoc]
      apply BitVec.eq_of_toNat_eq
      simp
    have hhigh : (k * 256 ^ (n + 1) + v) / 256 = k * 256 ^ n + v / 256 := by
      rw [pow_succ, ← mul_assoc]
      omega
    rw [bytesOfNat, hlow, hhigh, ih, bytesOfNat]

/-- `n` bytes spell the number they are made of, below `256 ^ n`. -/
theorem natOfBytes_bytesOfNat (n v : Nat) : natOfBytes (bytesOfNat n v) = v % 256 ^ n := by
  induction n generalizing v with
  | zero => simp [bytesOfNat, natOfBytes, Nat.mod_one]
  | succ n ih =>
    rw [bytesOfNat, natOfBytes, ih, BitVec.toNat_ofNat, pow_succ' 256]
    exact Nat.mod_mul.symm

/-- The bytes of a word spell it. -/
theorem ofNat_natOfBytes_bytesOfNat {n w : Nat} (hw : w = 8 * n) (x : BitVec w) :
    BitVec.ofNat w (natOfBytes (bytesOfNat n x.toNat)) = x := by
  have hlt : x.toNat < 256 ^ n := by
    calc x.toNat < 2 ^ w := x.isLt
      _ = 256 ^ n := by rw [hw, pow_mul]; norm_num
  rw [natOfBytes_bytesOfNat, Nat.mod_eq_of_lt hlt, BitVec.ofNat_toNat, BitVec.setWidth_eq]

/-- A bit field is taken from the quotient by its place. -/
theorem extractLsb'_eq_ofNat_div {w : Nat} (x : BitVec w) (start len : Nat) :
    x.extractLsb' start len = BitVec.ofNat len (x.toNat / 2 ^ start) := by
  rw [BitVec.extractLsb', Nat.shiftRight_eq_div_pow]

/-- Settles O8: the bytes of a word are its quotients by powers of 256, and the left sample is the low half of a
FRAME word. -/
theorem bytesAreLittleEndian : Obligations.BytesAreLittleEndian := by
  unfold Obligations.BytesAreLittleEndian
  constructor
  · intro w
    simp only [extractLsb'_eq_ofNat_div, bytesOfNat, Nat.div_div_eq_div_mul]
    norm_num
  · intro f
    have hbits : f.bits.toNat = f.right.toNat * 256 ^ 4 + f.left.toNat := cat_toNat 64 f.right f.left rfl
    have hright : f.bits.toNat / 256 ^ 4 = f.right.toNat := by
      have := f.left.isLt
      omega
    calc (Encoded.frame f.bits).bytes = bytesOfNat (4 + 4) f.bits.toNat := rfl
      _ = bytesOfNat 4 f.bits.toNat ++ bytesOfNat 4 f.right.toNat := by rw [bytesOfNat_add, hright]
      _ = bytesOfNat 4 f.left.toNat ++ bytesOfNat 4 f.right.toNat := by rw [hbits, bytesOfNat_mul_add]

/-! ## Bytes of a unit -/

@[simp] theorem length_bytes_buffer (ws : List DWord) : (Encoded.buffer ws).bytes.length = 8 * ws.length := by
  simp [Encoded.bytes, mul_comm]

/-- Eight bytes at a time, the bytes of a buffer are its FRAME words. -/
theorem dwordsOfBytes_bytes_buffer (ws : List DWord) :
    dwordsOfBytes ws.length (Encoded.buffer ws).bytes = ws := by
  induction ws with
  | nil => rfl
  | cons w ws ih =>
    have hbytes : (Encoded.buffer (w :: ws)).bytes = bytesOfNat 8 w.toNat ++ (Encoded.buffer ws).bytes := rfl
    rw [hbytes, List.length_cons, dwordsOfBytes, List.take_left' (length_bytesOfNat _ _),
      List.drop_left' (length_bytesOfNat _ _), ih, ofNat_natOfBytes_bytesOfNat (n := 8) rfl]

/-- The bytes of a unit have its format's width and spell the unit. -/
theorem unitOfBytes_bytes (u : Encoded) : unitOfBytes u.format u.bytes = .ok u := by
  cases u with
  | cmd w => simp [unitOfBytes, Encoded.format, Encoded.bytes, ofNat_natOfBytes_bytesOfNat]
  | bus w => simp [unitOfBytes, Encoded.format, Encoded.bytes, ofNat_natOfBytes_bytesOfNat]
  | frame w => simp [unitOfBytes, Encoded.format, Encoded.bytes, ofNat_natOfBytes_bytesOfNat]
  | buffer ws => simp [unitOfBytes, Encoded.format, dwordsOfBytes_bytes_buffer]

/-- Settles O9: the bytes of a unit spell the unit. -/
theorem byteSerialDecoding : Obligations.ByteSerialDecoding := by
  unfold Obligations.ByteSerialDecoding
  intro u
  rw [decodeBytes, unitOfBytes_bytes]

end Sys2Proof
end

section
/-! PROOFS. Decoder and encoder invert each other (30_encoding.md R80 to R85): for each format, which units
are encodings and what each decodes to; and the BUS words of the pseudo-instructions (R91). -/

namespace Sys2Proof

open Sys2Proof.Machine

/-! ## Command words (R81, R82) -/

/-- The fields that are not reserved spell one of the four commands. -/
theorem command_of_not_reserved {rsv : BitVec 28} {op : BitVec 4} (h : commandReserved rsv op = false) :
    rsv = 0#28 ∧ (op = 0#4 ∨ op = 1#4 ∨ op = 2#4 ∨ op = 3#4) := by
  simp only [commandReserved, Bool.or_eq_false_iff, bne_eq_false_iff_eq, decide_eq_false_iff_not] at h
  obtain ⟨hrsv, hop⟩ := h
  have hall : ∀ op : BitVec 4, ¬ 4#4 ≤ op → op = 0#4 ∨ op = 1#4 ∨ op = 2#4 ∨ op = 3#4 := by decide
  exact ⟨hrsv, hall op hop⟩

theorem decodeCommand_reserved {rsv : BitVec 28} {op : BitVec 4} (h : commandReserved rsv op = true) :
    decodeCommand (commandWord rsv op) = .illegalCmd rsv op := by
  simp [decodeCommand, h]

theorem exists_commandWord_eq (w : Word) : ∃ rsv op, commandWord rsv op = w :=
  ⟨_, _, cat_split w rfl⟩

/-- Every command word is the encoding of a well-formed command. -/
theorem exists_encode_eq_cmd (w : Word) : ∃ i : Instr, i.wf = true ∧ encode i = .cmd w := by
  obtain ⟨rsv, op, rfl⟩ := exists_commandWord_eq w
  cases h : commandReserved rsv op with
  | true => exact ⟨.illegalCmd rsv op, h, rfl⟩
  | false =>
    obtain ⟨rfl, rfl | rfl | rfl | rfl⟩ := command_of_not_reserved h
    · exact ⟨.nop, rfl, rfl⟩
    · exact ⟨.build, rfl, rfl⟩
    · exact ⟨.start, rfl, rfl⟩
    · exact ⟨.stop, rfl, rfl⟩

/-! ## BUS words (R83) -/

theorem AccessSize.ofCode_eq_none_iff : ∀ c : BitVec 3, AccessSize.ofCode c = none ↔ 4 ≤ c.toNat := by
  decide

theorem AccessSize.code_of_ofCode {c : BitVec 3} {z : AccessSize} (h : AccessSize.ofCode c = some z) :
    z.code = c := by
  have hall : ∀ c : BitVec 3, ∀ z ∈ AccessSize.ofCode c, z.code = c := by decide
  exact hall c z h

/-- Bit 63 is the code of the direction that the decoder reads from it. -/
theorem Direction.code_of_getLsbD (w : DWord) :
    (if w.getLsbD 63 then Direction.write else .read).code = w.extractLsb' 63 1 := by
  apply BitVec.eq_of_getLsbD_eq
  intro i hi
  obtain rfl : i = 0 := by omega
  cases h : w.getLsbD 63 <;> simp_all [Direction.code]

/-- Two neighbouring fields of a word make one. -/
theorem cat_extractLsb' {w k m n : Nat} (x : BitVec w) (h : n + m = k) :
    cat k (x.extractLsb' m n) (x.extractLsb' 0 m) = x.extractLsb' 0 k := by
  subst h
  rw [cat, BitVec.extractLsb'_append_extractLsb'_eq_extractLsb' (Nat.zero_add m).symm, BitVec.setWidth_eq]

/-- A word that spells an access is the BUS word of its fields. -/
theorem busWord_fields {w : DWord} {z : AccessSize} (hrsvb : w.extractLsb' 54 9 = 0#9)
    (hsize : AccessSize.ofCode (w.extractLsb' 51 3) = some z) :
    busWord (if w.getLsbD 63 then .write else .read) z (w.extractLsb' 32 19) (w.extractLsb' 0 32) = w := by
  unfold busWord
  rw [Direction.code_of_getLsbD, AccessSize.code_of_ofCode hsize, ← hrsvb, cat_extractLsb',
    cat_extractLsb', cat_extractLsb', cat_extractLsb', BitVec.extractLsb'_eq_self] <;> omega

@[simp] theorem decodeBus_busWord (dir : Direction) (z : AccessSize) (off : Offset) (v : Word) :
    decodeBus (busWord dir z off v) = .ok (decodeAccess dir z off v) := by
  cases dir <;> simp [decodeBus]

/-- The words that spell an access are BUS words of fields. -/
theorem decodeBus_eq_ok {w : DWord} {i : Instr} (h : decodeBus w = .ok i) :
    ∃ dir z off v, w = busWord dir z off v ∧ i = decodeAccess dir z off v := by
  unfold decodeBus at h
  split at h
  · cases h
  · rename_i hrsvb
    split at h
    · cases h
    · rename_i z hsize
      exact ⟨_, z, _, _, (busWord_fields (not_not.1 hrsvb) hsize).symm, (Except.ok.inj h).symm⟩

/-- The words that spell no access. -/
theorem decodeBus_eq_error_iff (w : DWord) :
    decodeBus w = .error .spellsNoAccess ↔
      (w.extractLsb' 54 9 ≠ 0#9 ∨ 4 ≤ (w.extractLsb' 51 3).toNat) := by
  rw [← AccessSize.ofCode_eq_none_iff]
  unfold decodeBus
  split
  · rename_i hrsvb
    simp [hrsvb]
  · rename_i hrsvb
    cases hsize : AccessSize.ofCode (w.extractLsb' 51 3) with
    | none => simp
    | some z => simpa using hrsvb

theorem cat_and_cat (w : Nat) {n m : Nat} (hi hi' : BitVec n) (lo lo' : BitVec m) :
    cat w hi lo &&& cat w hi' lo' = cat w (hi &&& hi') (lo &&& lo') := by
  rw [cat, cat, cat, ← BitVec.setWidth_and, BitVec.and_append]

/-- Clearing bits 31:0 of a BUS word clears WDATA and keeps the other fields. -/
theorem busWord_and_mask (dir : Direction) (z : AccessSize) (off : Offset) (v : Word) :
    busWord dir z off v &&& 0xFFFFFFFF00000000#64 = busWord dir z off 0#32 := by
  have hmask : 0xFFFFFFFF00000000#64 =
      cat 64 (BitVec.allOnes 1) (cat 63 (BitVec.allOnes 9)
        (cat 54 (BitVec.allOnes 3) (cat 51 (BitVec.allOnes 19) 0#32))) := by decide
  simp only [hmask, busWord, cat_and_cat, BitVec.and_allOnes, BitVec.and_zero]

/-! ## Accesses (R83, R89) -/

theorem accessLegal_eq_true {z : AccessSize} {off : Offset} (h : accessLegal z off = true) :
    z = .four ∧ Offset.aligned off = true := by
  simpa [accessLegal] using h

theorem decodeAccess_read_aligned {off : Offset} (v : Word) (h : Offset.aligned off = true) :
    decodeAccess .read .four off v = .rd off := by
  rw [← accessLegal_four] at h
  simp [decodeAccess, h]

theorem decodeAccess_write_aligned {off : Offset} (v : Word) (h : Offset.aligned off = true) :
    decodeAccess .write .four off v = .wr off v := by
  rw [← accessLegal_four] at h
  simp [decodeAccess, h]

/-- An illegal access keeps its fields; a read has WDATA 0. -/
theorem decodeAccess_illegal {dir : Direction} {z : AccessSize} {off : Offset} {v : Word}
    (h : accessLegal z off = false) (hread : dir = .read → v = 0#32) :
    decodeAccess dir z off v = .accessError dir z off v := by
  cases dir with
  | read => simp [decodeAccess, h, hread rfl]
  | write => simp [decodeAccess, h]

theorem wf_accessError_iff {dir : Direction} {z : AccessSize} {off : Offset} {v : Word} :
    (Instr.accessError dir z off v).wf = true ↔ accessLegal z off = false ∧ (dir = .read → v = 0#32) := by
  cases dir <;> simp [Instr.wf]

/-- Every BUS word of an access, with WDATA 0 for a read, is the encoding of a well-formed access. -/
theorem exists_encode_eq_bus (dir : Direction) (z : AccessSize) (off : Offset) (v : Word)
    (hread : dir = .read → v = 0#32) :
    ∃ i : Instr, i.wf = true ∧ encode i = .bus (busWord dir z off v) := by
  cases h : accessLegal z off with
  | true =>
    obtain ⟨rfl, haligned⟩ := accessLegal_eq_true h
    cases dir with
    | read => exact ⟨.rd off, haligned, by rw [hread rfl, encode]⟩
    | write => exact ⟨.wr off v, haligned, rfl⟩
  | false => exact ⟨.accessError dir z off v, wf_accessError_iff.2 ⟨h, hread⟩, rfl⟩

/-! ## FRAME words and buffers (R84, R85) -/

@[simp] theorem Frame.bits_ofBits (w : DWord) : (Frame.ofBits w).bits = w := cat_split w rfl

theorem decodeBuffer_eq_ok_iff (ws : List DWord) (i : Instr) :
    decodeBuffer ws = .ok i ↔
      (1 ≤ ws.length ∧ ws.length < 2 ^ 32) ∧ i = .buffer (ws.map Frame.ofBits) := by
  unfold decodeBuffer
  split
  · rename_i hempty
    simp [hempty]
  · rename_i hnonempty
    split
    · rename_i hlong
      exact ⟨nofun, fun ⟨⟨_, hshort⟩, _⟩ => absurd hshort (not_lt.2 hlong)⟩
    · rename_i hshort
      rw [Except.ok.injEq, eq_comm]
      exact ⟨fun h => ⟨⟨Nat.one_le_iff_ne_zero.2 hnonempty, not_le.1 hshort⟩, h⟩, And.right⟩

/-! ## Round trips -/

/-- An access that encodes to the BUS word it is decoded from. -/
theorem decode_encode_of_access {dir : Direction} {z : AccessSize} {off : Offset} {v : Word} {i : Instr}
    (hencode : encode i = .bus (busWord dir z off v)) (haccess : decodeAccess dir z off v = i) :
    decode (encode i) = .ok i := by
  rw [hencode, decode, decodeBus_busWord, haccess]

/-- Settles O5: the decoder reads back each field that the encoder writes, format by format. -/
theorem decodeEncodeRoundTrip : Obligations.DecodeEncodeRoundTrip := by
  unfold Obligations.DecodeEncodeRoundTrip
  intro i hwf
  cases i with
  | nop | build | start | stop => rfl
  | illegalCmd rsv op => rw [encode, decode, decodeCommand_reserved hwf]
  | rd off => exact decode_encode_of_access rfl (decodeAccess_read_aligned 0#32 hwf)
  | wr off data => exact decode_encode_of_access rfl (decodeAccess_write_aligned data hwf)
  | accessError dir size off data =>
    obtain ⟨hillegal, hread⟩ := wf_accessError_iff.1 hwf
    exact decode_encode_of_access rfl (decodeAccess_illegal hillegal hread)
  | frame left right => rw [encode, decode, Frame.ofBits_bits]
  | buffer frames =>
    simp only [Instr.wf, Bool.and_eq_true, decide_eq_true_eq] at hwf
    rw [encode, decode, decodeBuffer_eq_ok_iff, List.length_map]
    exact ⟨hwf, by simp [Function.comp_def]⟩

/-- The round trip the other way, for a unit that is an encoding. -/
theorem wf_and_encode_of_decode {u : Encoded} {i : Instr} (hu : ∃ j : Instr, j.wf = true ∧ encode j = u)
    (h : decode u = .ok i) : i.wf = true ∧ encode i = u := by
  obtain ⟨j, hwf, rfl⟩ := hu
  obtain rfl : j = i := Except.ok.inj ((decodeEncodeRoundTrip j hwf).symm.trans h)
  exact ⟨hwf, rfl⟩

/-- Settles O6: every unit that decodes is the encoding of a well-formed instruction, but for a BUS read,
which decodes as the word with its WDATA cleared. -/
theorem decodedInstructionsAreWellFormed : Obligations.DecodedInstructionsAreWellFormed := by
  unfold Obligations.DecodedInstructionsAreWellFormed
  intro u i h
  cases u with
  | cmd w => exact (wf_and_encode_of_decode (exists_encode_eq_cmd w) h).imp_right .inl
  | bus w =>
    obtain ⟨dir, z, off, v, rfl, rfl⟩ := decodeBus_eq_ok h
    cases dir with
    | read =>
      have hcleared : decode (.bus (busWord .read z off 0#32)) = .ok (decodeAccess .read z off v) :=
        decodeBus_busWord .read z off 0#32
      have hu := exists_encode_eq_bus .read z off 0#32 (fun _ => rfl)
      obtain ⟨hwf, hencode⟩ := wf_and_encode_of_decode hu hcleared
      exact ⟨hwf, .inr ⟨_, rfl, busWord_dir .read z off v, by rw [hencode, busWord_and_mask]⟩⟩
    | write =>
      have hu := exists_encode_eq_bus .write z off v (by simp)
      exact (wf_and_encode_of_decode hu h).imp_right .inl
  | frame w =>
    obtain rfl := Except.ok.inj h
    exact ⟨rfl, .inl (congrArg Encoded.frame (Frame.bits_ofBits w))⟩
  | buffer ws =>
    obtain ⟨hlength, rfl⟩ := (decodeBuffer_eq_ok_iff ws i).1 h
    refine ⟨by simpa [Instr.wf] using hlength, .inl ?_⟩
    simp [encode, Function.comp_def]

/-- Settles O7: the decoder rejects exactly these words, and a step refuses what it rejects. -/
theorem wordsThatSpellNoAccess : Obligations.WordsThatSpellNoAccess := by
  unfold Obligations.WordsThatSpellNoAccess
  refine ⟨decodeBus_eq_error_iff, ?_⟩
  intro s w rest hpending hfields
  have hdecode : decode (.bus w) = .error .spellsNoAccess := (decodeBus_eq_error_iff w).2 hfields
  rw [step_host hpending, hdecode]

/-! ## Pseudo-instructions (R91) -/

/-- Settles O11: both sides are closed words. -/
theorem pseudoInstructionsExpand : Obligations.PseudoInstructionsExpand := by
  unfold Obligations.PseudoInstructionsExpand
  decide

end Sys2Proof
end

section
/-! PROOFS. The integer check of a table entry is P2 of 40_table_builder.md R105 (log entry 7). -/

namespace Sys2Proof.Machine

/-- `sampleUnits` is the number of units of 2^-149 in the value a binary32 pattern denotes. -/
theorem real_eq_sampleUnits_div (v : Sample) :
    binary32.real v.toNat = (sampleUnits v : ℚ) / 2 ^ binary32.scale := by
  unfold FloatFormat.real sampleUnits
  split <;> simp

/-- The supplementary angle has the opposite cosine. -/
theorem cos_supplement {n k : ℕ} (hn : 0 < n) (hk : k ≤ n) :
    Real.cos ((n - k : ℕ) * Real.pi / n) = -Real.cos (k * Real.pi / n) := by
  have hn' : (n : ℝ) ≠ 0 := by exact_mod_cast hn.ne'
  rw [← Real.cos_pi_sub, Nat.cast_sub hk]
  congr 1
  field_simp

/-- `nearSine` decides P2: neither does the sine exceed `v + 2^-24`, nor its negative `2^-24 - v`. -/
theorem nearSine_iff {L i : ℕ} (h : i < L) (v : Sample) :
    nearSine L i v = true ↔
      |((binary32.real v.toNat : ℚ) : ℝ) - Real.sin (2 * Real.pi * i / L)| ≤ 1 / 2 ^ 24 := by
  have hn : 0 < 2 * L := by omega
  have hone : (0 : ℤ) < 2 ^ binary32.scale := by positivity
  have heps : ((2 ^ (binary32.scale - 24) : ℤ) : ℝ) / (2 ^ binary32.scale : ℤ) = 1 / 2 ^ 24 := by
    have hs : binary32.scale = 125 + 24 := by decide +kernel
    rw [hs, Nat.add_sub_cancel]
    norm_num
  have hreal : ((binary32.real v.toNat : ℚ) : ℝ) = (sampleUnits v : ℝ) / (2 ^ binary32.scale : ℤ) := by
    rw [real_eq_sampleUnits_div]
    push_cast
    rfl
  simp only [nearSine, Bool.and_eq_true, Bool.not_eq_true', ← Bool.not_eq_true,
    cosAbove_iff hn (sineAngle_le h) hone, cosAbove_iff hn (Nat.sub_le _ _) hone,
    cos_supplement hn (sineAngle_le h), ← sin_eq_cos_sineAngle h, not_lt]
  rw [Int.cast_add, Int.cast_sub, add_div, sub_div, heps, ← hreal, abs_le]
  constructor <;> rintro ⟨hlo, hhi⟩ <;> constructor <;> linarith

/-- Settles O51: `entryLegal` checks P0, P1 and, by counting sign changes, P2. -/
theorem sineRomMayHoldEveryLegalEntry : Obligations.SineRomMayHoldEveryLegalEntry := by
  unfold Obligations.SineRomMayHoldEveryLegalEntry
  intro L i hi
  refine ⟨fun v => ?_, fun hlegal => if_pos hlegal⟩
  rw [entryLegal_iff, nearSine_iff hi]

end Sys2Proof.Machine
end

section
/-! PROOFS. How far a rounding is from the exact value, and the exact values of the naturals in binary64
(00_scope.md R9). -/

namespace Sys2Proof.Machine

namespace FloatFormat

section NearestDistance

variable {f : FloatFormat} {q : Rat} {m l num den B : Nat}

/-- The nearest field is at most half the gap around `q` away. -/
theorem NearestMag.two_mul_dist_le_gap (h : f.NearestMag q m) (hlo : (f.magUnits l : Rat) ≤ q)
    (hhi : q ≤ f.magUnits (l + 1)) :
    2 * |(f.magUnits m : Rat) - q| ≤ f.magUnits (l + 1) - f.magUnits l := by
  have hlower := (h l).1
  have hupper := (h (l + 1)).1
  rw [abs_of_nonpos (a := (f.magUnits l : Rat) - q) (by linarith)] at hlower
  rw [abs_of_nonneg (a := (f.magUnits (l + 1) : Rat) - q) (by linarith)] at hupper
  linarith

/-- A value that is a field's own rounds to that field. -/
theorem NearestMag.eq_of_exact (h : f.NearestMag (f.magUnits l) m) : m = l := by
  have hle := (h l).1
  rw [sub_self, abs_zero, abs_nonpos_iff, sub_eq_zero] at hle
  exact f.magUnits_strictMono.injective (by exact_mod_cast hle)

theorem log2_div_lt (hB : 0 < B) (hlt : num < den * 2 ^ B) : Nat.log2 (num / den) < B := by
  rcases eq_or_ne (num / den) 0 with h0 | h0
  · simpa [h0] using hB
  · exact (Nat.log2_lt h0).2 (Nat.div_lt_of_lt_mul hlt)

/-- Below `2 ^ B` units a field is at most half a unit in the last of `fracBits + 1` places away. -/
theorem NearestMag.dist_le (h : f.NearestMag ((num : Rat) / den) m) (hden : 0 < den)
    (hB : f.fracBits + 1 ≤ B) (hlt : num < den * 2 ^ B) :
    |(f.magUnits m : Rat) - num / den| ≤ 2 ^ (B - (f.fracBits + 1)) / 2 := by
  have hlog : Nat.log2 (num / den) < B := log2_div_lt (by omega) hlt
  obtain ⟨hlo, hhi⟩ := f.significand_bounds (num / den)
  set t := Nat.log2 (num / den) + 1 - (f.fracBits + 1) with ht
  rw [Nat.div_div_eq_div_mul] at hlo hhi
  obtain ⟨hbelow, habove⟩ := f.distance_to_neighbours num hden hlo hhi
  have hden' : (0 : Rat) < den := by exact_mod_cast hden
  have hr : ((num % (den * 2 ^ t) : Nat) : Rat) ≤ (den * 2 ^ t : Nat) := by
    exact_mod_cast (Nat.mod_lt num (by positivity)).le
  have hbelow0 : (0 : Rat) ≤ (num % (den * 2 ^ t) : Nat) / den := by positivity
  have habove0 : (0 : Rat) ≤ ((den * 2 ^ t : Nat) - (num % (den * 2 ^ t) : Nat)) / den :=
    div_nonneg (sub_nonneg.2 hr) hden'.le
  have hgap : ((num % (den * 2 ^ t) : Nat) : Rat) / den +
      ((den * 2 ^ t : Nat) - (num % (den * 2 ^ t) : Nat)) / den = 2 ^ t := by
    rw [← add_div, add_sub_cancel, Nat.cast_mul, mul_div_cancel_left₀ _ hden'.ne', Nat.cast_pow,
      Nat.cast_ofNat]
  have htB : (2 : Rat) ^ t ≤ 2 ^ (B - (f.fracBits + 1)) :=
    pow_le_pow_right₀ (by norm_num) (by omega)
  have := h.two_mul_dist_le_gap (l := t * 2 ^ f.fracBits + num / (den * 2 ^ t)) (by linarith)
    (by linarith)
  linarith

/-- Well below the overflow `roundMag` is the nearest field. -/
theorem roundMag_nearestMag (hf : f.fracBits ≠ 0) (he : 2 ≤ f.expBits) (hden : 0 < den) (hB : 0 < B)
    (hfit : B + 3 ≤ 2 ^ f.expBits + f.fracBits) (hlt : num < den * 2 ^ B) :
    f.roundMag num den < f.infMag ∧ f.NearestMag ((num : Rat) / den) (f.roundMag num den) := by
  have hlog := log2_div_lt hB hlt
  have hfin := f.roundMag_lt_infMag num den (by omega) (Nat.pow_le_pow_right two_pos he)
  obtain ⟨m, hm, hround⟩ := exists_nearestMag_roundMag hf num hden
  obtain rfl : f.roundMag num den = m := by omega
  exact ⟨hfin, hm⟩

end NearestDistance

section RealDistance

variable {f : FloatFormat} {x : Rat} {m num den e : Nat} {sign : Bool}

theorem real_pack (sign : Bool) (h : m < 2 ^ f.signPos) :
    f.real (f.pack sign m) = signFactor sign * ((f.magUnits m : Rat) / 2 ^ f.scale) := by
  rw [real, neg_pack sign h, units_eq_magUnits, mag_pack sign h, ← signFactor, mul_div_assoc]

theorem finite_pack (sign : Bool) (h : m < f.infMag) : f.Finite (f.pack sign m) := by
  have hsig := h.trans f.infMag_lt
  exact ⟨pack_lt sign hsig, by rwa [mag_pack sign hsig]⟩

/-- With the sign of `x`, a magnitude is as far from `x` as it is from that of `x`. -/
theorem abs_real_pack_sub (h : m < 2 ^ f.signPos) (hx : x = signFactor sign * |x|) :
    |f.real (f.pack sign m) - x| = |(f.magUnits m : Rat) - |x| * 2 ^ f.scale| / 2 ^ f.scale := by
  have hs : (0 : Rat) < 2 ^ f.scale := by positivity
  have hsub : (f.magUnits m : Rat) / 2 ^ f.scale - |x| =
      (f.magUnits m - |x| * 2 ^ f.scale) / 2 ^ f.scale := by
    rw [sub_div, mul_div_cancel_right₀ _ hs.ne']
  calc |f.real (f.pack sign m) - x|
      = |signFactor sign * ((f.magUnits m : Rat) / 2 ^ f.scale - |x|)| := by
        rw [real_pack sign h, mul_sub, ← hx]
    _ = _ := by rw [abs_mul, abs_signFactor, one_mul, hsub, abs_div, abs_of_pos hs]

/-- The rounding of an `x` below `2 ^ e` is finite and at most `2 ^ e / 2 ^ (fracBits + 2)` away. -/
theorem pack_roundMag_near (hf : f.fracBits ≠ 0) (he : 2 ≤ f.expBits) (hden : 0 < den)
    (hx : x = signFactor sign * |x|) (hq : |x| * 2 ^ f.scale = num / den)
    (hsmall : f.fracBits + 1 ≤ f.scale) (hfit : f.scale + e + 3 ≤ 2 ^ f.expBits + f.fracBits)
    (hlt : |x| < 2 ^ e) :
    f.Finite (f.pack sign (f.roundMag num den)) ∧
      |f.real (f.pack sign (f.roundMag num den)) - x| ≤ 2 ^ e / 2 ^ (f.fracBits + 2) := by
  have hden' : (0 : Rat) < den := by exact_mod_cast hden
  have hs : (0 : Rat) < 2 ^ f.scale := by positivity
  have hnum : num < den * 2 ^ (f.scale + e) := by
    have : (num : Rat) / den < 2 ^ e * 2 ^ f.scale := by rw [← hq]; exact mul_lt_mul_of_pos_right hlt hs
    rw [div_lt_iff₀ hden', ← pow_add, mul_comm, add_comm e] at this
    exact_mod_cast this
  obtain ⟨hfin, hnear⟩ := roundMag_nearestMag hf he hden (by omega) hfit hnum
  refine ⟨finite_pack sign hfin, ?_⟩
  rw [abs_real_pack_sub (hfin.trans f.infMag_lt) hx, hq, div_le_iff₀ hs]
  refine (hnear.dist_le hden (by omega) hnum).trans_eq ?_
  obtain ⟨k, hk⟩ := Nat.exists_eq_add_of_le' hsmall
  rw [hk, show k + (f.fracBits + 1) + e - (f.fracBits + 1) = k + e by omega]
  field_simp
  ring

end RealDistance

/-! ## The product -/

theorem mul_of_finite {f : FloatFormat} {a b : Nat} (ha : f.Finite a) (hb : f.Finite b) :
    f.mul a b = some (f.pack (f.neg a ^^ f.neg b) (f.roundMag (f.units a * f.units b) (2 ^ f.scale))) := by
  obtain ⟨-, hafin⟩ := ha
  obtain ⟨-, hbfin⟩ := hb
  simp [mul, isNaN, isInf, hafin.not_gt, hbfin.not_gt, hafin.ne, hbfin.ne]

/-- The sign of the exact product is the XOR of the signs. -/
theorem real_mul_eq_signFactor_mul_abs (f : FloatFormat) (a b : Nat) :
    f.real a * f.real b = signFactor (f.neg a ^^ f.neg b) * |f.real a * f.real b| := by
  conv_lhs => rw [f.real_eq_signFactor_mul_abs a, f.real_eq_signFactor_mul_abs b]
  rw [signFactor_xor, abs_mul]
  ring

/-- The exact product in units is the fraction that `mul` rounds. -/
theorem abs_real_mul_mul (f : FloatFormat) (a b : Nat) :
    |f.real a * f.real b| * 2 ^ f.scale = ((f.units a * f.units b : Nat) : Rat) / (2 ^ f.scale : Nat) := by
  have hs : (2 : Rat) ^ f.scale ≠ 0 := by positivity
  rw [abs_mul, abs_real, abs_real, units_eq_magUnits, units_eq_magUnits]
  push_cast
  field_simp

end FloatFormat

/-! ## binary64 -/

theorem scale_binary64 : binary64.scale = 1074 := by decide +kernel

/-- A rounding in binary64 of an `x` below `2 ^ e`. -/
theorem binary64_pack_near {x : Rat} {num den e : Nat} {sign : Bool} (hden : 0 < den)
    (hx : x = FloatFormat.signFactor sign * |x|) (hq : |x| * 2 ^ binary64.scale = num / den)
    (he : e ≤ 1000) (hlt : |x| < 2 ^ e) :
    binary64.Finite (BitVec.ofNat 64 (binary64.pack sign (binary64.roundMag num den))).toNat ∧
      |binary64.real (BitVec.ofNat 64 (binary64.pack sign (binary64.roundMag num den))).toNat - x| ≤
        2 ^ e / 2 ^ 54 := by
  rw [toNat_pack_binary64 sign (binary64.roundMag_le_infMag num den)]
  refine FloatFormat.pack_roundMag_near (by decide) (by decide) hden hx hq ?_ ?_ hlt
  · rw [scale_binary64]; decide
  · rw [scale_binary64]
    have : 2 ^ binary64.expBits + binary64.fracBits = 2100 := by decide
    omega

theorem f64mul_near {a b : DWord} {e : Nat} (ha : binary64.Finite a.toNat) (hb : binary64.Finite b.toNat)
    (he : e ≤ 1000) (hlt : |binary64.real a.toNat * binary64.real b.toNat| < 2 ^ e) :
    ∃ p, f64mul a b = some p ∧ binary64.Finite p.toNat ∧
      |binary64.real p.toNat - binary64.real a.toNat * binary64.real b.toNat| ≤ 2 ^ e / 2 ^ 54 := by
  obtain ⟨hfin, hnear⟩ := binary64_pack_near (by positivity)
    (binary64.real_mul_eq_signFactor_mul_abs a.toNat b.toNat)
    (binary64.abs_real_mul_mul a.toNat b.toNat) he hlt
  exact ⟨_, by rw [f64mul, FloatFormat.mul_of_finite ha hb, Option.map_some], hfin, hnear⟩

theorem f64div_near {a b : DWord} {e : Nat} (ha : binary64.Finite a.toNat) (hb : binary64.Finite b.toNat)
    (hb0 : binary64.isZero b.toNat = false) (he : e ≤ 1000)
    (hlt : |binary64.real a.toNat / binary64.real b.toNat| < 2 ^ e) :
    ∃ q, f64div a b = some q ∧ binary64.Finite q.toNat ∧
      |binary64.real q.toNat - binary64.real a.toNat / binary64.real b.toNat| ≤ 2 ^ e / 2 ^ 54 := by
  obtain ⟨hfin, hnear⟩ := binary64_pack_near (FloatFormat.units_pos hb0)
    (binary64.real_div_eq_signFactor_mul_abs a.toNat b.toNat)
    (binary64.abs_real_div_mul a.toNat b.toNat) he hlt
  exact ⟨_, f64div_of_finite ha hb hb0, hfin, hnear⟩

/-- A natural below 2^53 is the value of a binary64 magnitude field. -/
theorem exists_magUnits_eq_nat {n : Nat} (h : n < 2 ^ 53) :
    ∃ m, binary64.magUnits m = n * 2 ^ binary64.scale := by
  rcases eq_or_ne n 0 with rfl | hn
  · exact ⟨0, by simp⟩
  have hlog : Nat.log2 n < 53 := (Nat.log2_lt hn).2 h
  have hlo : 2 ^ 52 ≤ n * 2 ^ (52 - Nat.log2 n) := by
    calc 2 ^ 52 = 2 ^ Nat.log2 n * 2 ^ (52 - Nat.log2 n) := by rw [← pow_add]; congr 1; omega
      _ ≤ _ := Nat.mul_le_mul_right _ (Nat.log2_self_le hn)
  have hhi : n * 2 ^ (52 - Nat.log2 n) ≤ 2 * 2 ^ 52 := by
    calc n * 2 ^ (52 - Nat.log2 n) ≤ 2 ^ (Nat.log2 n + 1) * 2 ^ (52 - Nat.log2 n) :=
          Nat.mul_le_mul_right _ Nat.lt_log2_self.le
      _ = 2 * 2 ^ 52 := by rw [← pow_add, ← Nat.pow_succ']; congr 1; omega
  refine ⟨_, (binary64.magUnits_place (t := 1022 + Nat.log2 n) (.inr hlo) hhi).trans ?_⟩
  rw [mul_assoc, ← pow_add, scale_binary64]
  congr 2
  omega

/-- `toF64` is exact below 2^53 (00_scope.md R9). -/
theorem toF64_exact {n : Nat} (h : n < 2 ^ 53) :
    binary64.Finite (toF64 n).toNat ∧ binary64.neg (toF64 n).toNat = false ∧
      binary64.real (toF64 n).toNat = n := by
  have hlt : n * 2 ^ binary64.scale < 1 * 2 ^ (53 + binary64.scale) := by
    rw [one_mul, pow_add]
    exact Nat.mul_lt_mul_of_pos_right h (by positivity)
  obtain ⟨hfin, hnear⟩ := FloatFormat.roundMag_nearestMag (f := binary64) (by decide) (by decide) one_pos
    (by omega) (by rw [scale_binary64]; decide) hlt
  obtain ⟨m, hm⟩ := exists_magUnits_eq_nat h
  rw [Nat.cast_one, div_one] at hnear
  have hround := FloatFormat.NearestMag.eq_of_exact (by rwa [hm])
  have hsig := hfin.trans binary64.infMag_lt
  have hpack : (toF64 n).toNat = binary64.pack false (binary64.roundMag (n * 2 ^ binary64.scale) 1) := by
    rw [← toNat_pack_binary64 false hfin.le]
    simp [toF64, FloatFormat.pack]
  rw [hpack]
  refine ⟨FloatFormat.finite_pack _ hfin, FloatFormat.neg_pack _ hsig, ?_⟩
  rw [FloatFormat.real_pack _ hsig, hround, hm]
  simp [FloatFormat.signFactor]

/-- Zeros are the values 0. -/
theorem FloatFormat.isZero_eq_false_iff (f : FloatFormat) (bits : Nat) :
    f.isZero bits = false ↔ f.real bits ≠ 0 := by
  rw [← abs_ne_zero, abs_real, isZero, decide_eq_false_iff_not]
  constructor
  · intro h
    have := f.magUnits_pos h
    positivity
  · rintro h h0
    simp [h0] at h

end Sys2Proof.Machine
end

section
/-! PROOFS. BUILD (40_table_builder.md R101 to R103, R107 to R109): its outcome for each quotient, the length
as the floor of a correctly rounded quotient, and what two builds share. -/

namespace Sys2Proof.Machine

/-! ## The quotient of BUILD -/

/-- A frequency that passes BUILD's first check is +infinity or a finite value above 0. -/
theorem finite_or_isInf_of_positive {f : DWord} (hnan : f64isNaN f = false)
    (hpos : f64nonPositive f = false) :
    binary64.neg f.toNat = false ∧ binary64.isZero f.toNat = false ∧
      (binary64.isInf f.toNat = true ∨ binary64.Finite f.toNat) := by
  obtain ⟨hzero, hneg⟩ := Bool.or_eq_false_iff.1 hpos
  have hle : binary64.mag f.toNat ≤ binary64.infMag := not_lt.1 (of_decide_eq_false hnan)
  refine ⟨hneg, hzero, hle.eq_or_lt.imp (decide_eq_true ·) fun hlt => ⟨?_, hlt⟩⟩
  exact f.isLt

/-- A finite value by +infinity is +0.0 where the signs are equal (R110). -/
theorem f64div_by_infinity {a f : DWord} (ha : binary64.Finite a.toNat) (haneg : binary64.neg a.toNat = false)
    (hneg : binary64.neg f.toNat = false) (hinf : binary64.isInf f.toNat = true)
    (hzero : binary64.isZero f.toNat = false) : f64div a f = some 0#64 := by
  obtain ⟨-, hafin⟩ := ha
  have hmag : binary64.mag f.toNat = binary64.infMag := of_decide_eq_true hinf
  have hanan : binary64.isNaN a.toNat = false := decide_eq_false hafin.not_gt
  have hainf : binary64.isInf a.toNat = false := decide_eq_false hafin.ne
  have hnan : binary64.isNaN f.toNat = false := decide_eq_false hmag.not_gt
  simp [f64div, FloatFormat.div, hanan, hainf, hnan, hinf, hzero, haneg, hneg, FloatFormat.pack]

/-- SAMPLE_RATE converts exactly (R102). -/
theorem toF64_sampleRate (sr : Word) :
    binary64.Finite (toF64 sr.toNat).toNat ∧ binary64.neg (toF64 sr.toNat).toNat = false ∧
      binary64.real (toF64 sr.toNat).toNat = sr.toNat :=
  toF64_exact (sr.isLt.trans (by decide))

/-- BUILD's quotient is no NaN (log entry 10). -/
theorem exists_quotient (sr : Word) {f : DWord} (hnan : f64isNaN f = false)
    (hpos : f64nonPositive f = false) : ∃ q, f64div (toF64 sr.toNat) f = some q := by
  obtain ⟨hneg, hzero, hinf | hfin⟩ := finite_or_isInf_of_positive hnan hpos
  · obtain ⟨hsr, hsrneg, -⟩ := toF64_sampleRate sr
    exact ⟨_, f64div_by_infinity hsr hsrneg hneg hinf hzero⟩
  · exact ⟨_, f64div_of_finite (toF64_sampleRate sr).1 hfin hzero⟩

theorem tableLength_of_bad_frequency (depth : Nat) (sr : Word) {f : DWord}
    (h : f64isNaN f = true ∨ f64nonPositive f = true) :
    tableLength depth sr f = .error .invalidFrequency := by
  rw [tableLength, if_pos (by simpa using h)]

/-- The length or the error is a matter of the quotient alone once the frequency is good. -/
theorem tableLength_of_quotient (depth : Nat) {sr : Word} {f q : DWord} (hnan : f64isNaN f = false)
    (hpos : f64nonPositive f = false) (hq : f64div (toF64 sr.toNat) f = some q) :
    tableLength depth sr f =
      if f64isInf q = true ∨ depth < f64floor q then .error .tableOverflow
      else if f64floor q < 1 then .error .invalidFrequency else .ok (f64floor q) := by
  rw [tableLength, if_neg (by simp [hnan, hpos]), hq]
  cases hinf : f64isInf q <;> simp [hinf]

/-- Where BUILD finds a length, it is the floor of a quotient that is no infinity. -/
theorem quotient_of_tableLength_ok {depth L : Nat} {sr : Word} {f : DWord}
    (h : tableLength depth sr f = .ok L) :
    f64isNaN f = false ∧ f64nonPositive f = false ∧
      ∃ q, f64div (toF64 sr.toNat) f = some q ∧ f64isInf q = false ∧ f64floor q = L := by
  by_cases hbad : f64isNaN f = true ∨ f64nonPositive f = true
  · rw [tableLength_of_bad_frequency depth sr hbad] at h
    cases h
  obtain ⟨hnan, hpos⟩ : f64isNaN f = false ∧ f64nonPositive f = false := by simpa using hbad
  obtain ⟨q, hq⟩ := exists_quotient sr hnan hpos
  rw [tableLength_of_quotient depth hnan hpos hq] at h
  split at h
  · cases h
  · rename_i hover
    split at h
    · cases h
    · exact ⟨hnan, hpos, q, hq, by simpa using (not_or.1 hover).1, Except.ok.inj h⟩

/-! ## The outcome -/

theorem execBuild_of_error {s : State} {c : ErrCode} (hstopped : s.running = false)
    (h : s.buildLength = .error c) : execBuild s = .next (s.setErr c) := by
  simp [execBuild, hstopped, h, State.error]

theorem execBuild_of_ok {s : State} {L : Nat} (hstopped : s.running = false) (h : s.buildLength = .ok L) :
    execBuild s = .next (((s.loadTable L).setPhases 0#32 0#32).setErr .ok) := by
  simp [execBuild, hstopped, h]

/-- Settles O16: BUSY first, then the frequency, then what `tableLength_of_quotient` says of the quotient. -/
theorem buildOutcome : Obligations.BuildOutcome := by
  unfold Obligations.BuildOutcome
  intro s
  refine ⟨fun hrunning => ?_, fun hstopped hbad => ?_, fun hstopped hnan hpos => ?_⟩
  · exact if_pos hrunning
  · exact execBuild_of_error hstopped (tableLength_of_bad_frequency _ _ hbad)
  obtain ⟨q, hq⟩ := exists_quotient s.sampleRate hnan hpos
  have hlength : s.buildLength = _ := tableLength_of_quotient s.params.lutDepthMax hnan hpos hq
  refine ⟨q, hq, fun hover => ?_, fun hinf hsmall => ?_, fun hinf hmin hmax => ?_⟩
  · rw [if_pos hover] at hlength
    exact execBuild_of_error hstopped hlength
  · rw [if_neg (by simp [hinf]; omega), if_pos hsmall] at hlength
    exact execBuild_of_error hstopped hlength
  · rw [if_neg (by simp [hinf, hmax]), if_neg (by omega)] at hlength
    exact ⟨s.lut.writeTable (f64floor q) (sineRom s.params.sineRom (f64floor q)),
      execBuild_of_ok hstopped hlength, fun i hi => Memory.read_writeTable_lt _ _ _ i hi,
      fun i hi => Memory.read_writeTable_ge _ _ _ i hi⟩

/-! ## The length -/

namespace FloatFormat.NearestEven

variable {f : FloatFormat} {x : Rat} {r y : Nat}

/-- Rounding does not pass a finite value from below. -/
theorem real_le (h : f.NearestEven x r) (hy : f.Finite y) (hle : x ≤ f.real y) : f.real r ≤ f.real y := by
  obtain ⟨-, hnear⟩ := h
  have hdist := (hnear y hy).1
  rw [abs_of_nonneg (a := f.real y - x) (by linarith)] at hdist
  linarith [le_abs_self (f.real r - x)]

/-- Rounding does not pass a finite value from above. -/
theorem le_real (h : f.NearestEven x r) (hy : f.Finite y) (hle : f.real y ≤ x) : f.real y ≤ f.real r := by
  obtain ⟨-, hnear⟩ := h
  have hdist := (hnear y hy).1
  rw [abs_of_nonpos (a := f.real y - x) (by linarith)] at hdist
  linarith [neg_abs_le (f.real r - x)]

end FloatFormat.NearestEven

/-- `f64floor` of a value that is not negative is the floor of the number it denotes (00_scope.md R8). -/
theorem f64floor_eq_floor {q : DWord} (hneg : binary64.neg q.toNat = false) :
    f64floor q = ⌊binary64.real q.toNat⌋₊ := by
  have hpow : (2 : ℚ) ^ binary64.scale = (2 ^ binary64.scale : Nat) := by simp
  rw [f64floor, FloatFormat.real, hneg, if_neg Bool.false_ne_true, one_mul, hpow, Nat.floor_div_eq_div]

/-- An infinity, of either sign, is what `f64isInf` says. -/
theorem f64isInf_pack_infMag (sign : Bool) :
    f64isInf (BitVec.ofNat 64 (binary64.pack sign binary64.infMag)) = true := by
  cases sign <;> decide +kernel

/-- The quotient of a length that BUILD finds: the frequency is finite and above 0, and the length is the
floor of SR / F correctly rounded. -/
theorem nearestEven_of_tableLength_ok {depth L : Nat} {sr : Word} {f : DWord}
    (h : tableLength depth sr f = .ok L) :
    0 < binary64.real f.toNat ∧
      ∃ r, binary64.NearestEven ((sr.toNat : ℚ) / binary64.real f.toNat) r ∧ L = ⌊binary64.real r⌋₊ := by
  obtain ⟨hnan, hpos, q, hq, hqinf, rfl⟩ := quotient_of_tableLength_ok h
  obtain ⟨hneg, hzero, hinf | hfin⟩ := finite_or_isInf_of_positive hnan hpos
  · obtain ⟨hsr, hsrneg, -⟩ := toF64_sampleRate sr
    rw [f64div_by_infinity hsr hsrneg hneg hinf hzero] at hq
    obtain rfl := Option.some.inj hq
    have hfloor : f64floor 0#64 = 0 := by decide +kernel
    exact absurd (tableLength_ok h).1 (by omega)
  obtain ⟨hsr, hsrneg, hsrreal⟩ := toF64_sampleRate sr
  obtain ⟨hround, hoverflow⟩ := divisionIsCorrectlyRounded (toF64 sr.toNat) f hsr hfin hzero
  rw [hsrreal, hsrneg, hneg, hq] at hround hoverflow
  rcases lt_or_ge |(sr.toNat : ℚ) / binary64.real f.toNat| binary64.overflowBound with hlt | hge
  · obtain ⟨q', hq', hnear, hq'neg⟩ := hround hlt
    obtain rfl := Option.some.inj hq'
    refine ⟨?_, q.toNat, hnear, f64floor_eq_floor hq'neg⟩
    rw [FloatFormat.real_eq_signFactor_mul_abs, hneg]
    simpa [FloatFormat.signFactor] using (binary64.isZero_eq_false_iff f.toNat).1 hzero
  · rw [Option.some.inj (hoverflow hge), f64isInf_pack_infMag] at hqinf
    cases hqinf

/-- Settles O17: the naturals up to 65537 are binary64 values, and rounding passes none of them. -/
theorem buildLengthNearExactFloor : Obligations.BuildLengthNearExactFloor := by
  unfold Obligations.BuildLengthNearExactFloor
  intro depth sr f L hdepth h
  obtain ⟨-, hLdepth⟩ := tableLength_ok h
  obtain ⟨hf, r, hnear, hL⟩ := nearestEven_of_tableLength_ok h
  have hx0 : 0 ≤ (sr.toNat : ℚ) / binary64.real f.toNat := by positivity
  have hexact : ∀ n : Nat, (n : ℚ) * binary64.real f.toNat = sr.toNat →
      (sr.toNat : ℚ) / binary64.real f.toNat = n := fun n hn => by rw [← hn, mul_div_cancel_right₀ _ hf.ne']
  generalize (sr.toNat : ℚ) / binary64.real f.toNat = x at hnear hx0 hexact ⊢
  have hbelow : ∀ n : Nat, n < 2 ^ 53 → (n : ℚ) ≤ x → n ≤ L := by
    intro n hn hle
    obtain ⟨hfin, -, hreal⟩ := toF64_exact hn
    rw [hL]
    exact Nat.le_floor (hreal ▸ hnear.le_real hfin (hreal.symm ▸ hle))
  have habove : ∀ n : Nat, n < 2 ^ 53 → x ≤ n → L ≤ n := by
    intro n hn hle
    obtain ⟨hfin, -, hreal⟩ := toF64_exact hn
    rw [hL]
    exact Nat.floor_le_of_le (hreal ▸ hnear.real_le hfin (hreal.symm ▸ hle))
  have hx : x < 65537 := by
    by_contra! hge
    have := hbelow 65537 (by norm_num) (by exact_mod_cast hge)
    omega
  have hfloor : ⌊x⌋₊ < 65537 := (Nat.floor_lt hx0).2 (by exact_mod_cast hx)
  rw [← Int.natCast_floor_eq_floor hx0]
  refine ⟨?_, ?_, fun n hn => ?_⟩
  · exact_mod_cast hbelow _ (by omega) (Nat.floor_le hx0)
  · exact_mod_cast habove (⌊x⌋₊ + 1) (by omega) (by push_cast; exact (Nat.lt_floor_add_one x).le)
  · have hxn := hexact n hn
    have hn' : n < 65537 := by exact_mod_cast hxn ▸ hx
    exact le_antisymm (habove n (by omega) hxn.le) (hbelow n (by omega) hxn.ge)

/-! ## Two builds -/

/-- A BUILD that reports OK has loaded a table of a legal length. -/
theorem loaded_of_execBuild_ok {s t : State} (h : execBuild s = .next t) (hok : t.err = 0#4) :
    ∃ L, s.buildLength = .ok L ∧ L ≤ s.params.lutDepthMax ∧
      t = ((s.loadTable L).setPhases 0#32 0#32).setErr .ok := by
  cases hrunning : s.running
  · cases hlength : s.buildLength with
    | error c =>
      rw [execBuild_of_error hrunning hlength] at h
      obtain rfl := Host.Outcome.next.inj h
      rcases tableLength_error hlength with rfl | rfl
      · exact absurd hok (by decide : ErrCode.invalidFrequency.bits ≠ 0#4)
      · exact absurd hok (by decide : ErrCode.tableOverflow.bits ≠ 0#4)
    | ok L =>
      rw [execBuild_of_ok hrunning hlength] at h
      exact ⟨L, rfl, (tableLength_ok hlength).2, (Host.Outcome.next.inj h).symm⟩
  · obtain rfl := Host.Outcome.next.inj ((if_pos hrunning).symm.trans h)
    exact absurd hok (by decide : ErrCode.busy.bits ≠ 0#4)

/-- Settles O18: the length is a function of SR and F, and the table one of the length. -/
theorem sameLengthSameTable : Obligations.SameLengthSameTable := by
  unfold Obligations.SameLengthSameTable
  intro s₁ s₂ t₁ t₂ hlegal hparams h₁ h₂ hok₁ hok₂
  obtain ⟨L₁, hlen₁, hfits₁, rfl⟩ := loaded_of_execBuild_ok h₁ hok₁
  obtain ⟨L₂, hlen₂, hfits₂, rfl⟩ := loaded_of_execBuild_ok h₂ hok₂
  refine ⟨fun hsr hf => ?_, fun hlength i hi => ?_⟩
  · have hsame : s₁.buildLength = s₂.buildLength := by simp [State.buildLength, hsr, hf, hparams]
    obtain rfl : L₁ = L₂ := Except.ok.inj (hlen₁.symm.trans (hsame.trans hlen₂))
    rfl
  · have hL₁ := toNat_tableLength hlegal hfits₁
    have hL₂ := toNat_tableLength hlegal (hparams ▸ hfits₂)
    obtain rfl : L₁ = L₂ := by rw [← hL₁, ← hL₂]; exact congrArg BitVec.toNat hlength
    have hi' : i < L₁ := hL₁ ▸ hi
    have hread₁ := Memory.read_writeTable_lt s₁.lut L₁ (sineRom s₁.params.sineRom L₁) i hi'
    have hread₂ := Memory.read_writeTable_lt s₂.lut L₁ (sineRom s₁.params.sineRom L₁) i hi'
    simp [State.lutWindow, State.lutEntry, hread₁, hread₂, hparams, hL₁, hi']

end Sys2Proof.Machine
end

section
/-! PROOFS. SINE_REF is accurate (40_table_builder.md R105, R106): the Horner sum is a partial sum of the sine,
whose rest is small, and the roundings to binary64 and to binary32 add little. -/

namespace Sys2Proof.Machine

/-! ## The partial sum of the sine -/

/-- Term `j` of the Taylor series of the sine. -/
noncomputable def sinTerm (x : ℝ) (j : ℕ) : ℝ := (-1) ^ j * x ^ (2 * j + 1) / (2 * j + 1).factorial

theorem sinTerm_zero (x : ℝ) : sinTerm x 0 = x := by simp [sinTerm]

theorem sinTerm_succ (x : ℝ) (j : ℕ) :
    sinTerm x (j + 1) = -(x ^ 2 / ((2 * (j + 1)) * (2 * (j + 1) + 1))) * sinTerm x j := by
  have hfact : ((2 * (j + 1) + 1).factorial : ℝ) =
      (2 * (j + 1) + 1) * (2 * (j + 1)) * (2 * j + 1).factorial := by
    rw [show 2 * (j + 1) + 1 = (2 * j + 1) + 1 + 1 by ring, Nat.factorial_succ, Nat.factorial_succ]
    push_cast
    ring
  have : ((2 * j + 1).factorial : ℝ) ≠ 0 := by positivity
  rw [sinTerm, sinTerm, hfact]
  field_simp
  ring

theorem im_sum_exp_terms (x : ℝ) (n : ℕ) :
    (∑ m ∈ Finset.range (2 * n), (x * Complex.I : ℂ) ^ m / m.factorial).im =
      ∑ j ∈ Finset.range n, sinTerm x j := by
  induction n with
  | zero => simp
  | succ n ih =>
    have heven : ((x * Complex.I : ℂ) ^ (2 * n) / (2 * n).factorial) =
        (((-1) ^ n * x ^ (2 * n) / (2 * n).factorial : ℝ) : ℂ) := by
      rw [mul_pow, pow_mul Complex.I, Complex.I_sq]
      push_cast
      ring
    have hodd : ((x * Complex.I : ℂ) ^ (2 * n + 1) / (2 * n + 1).factorial) =
        (sinTerm x n : ℂ) * Complex.I := by
      rw [sinTerm, mul_pow, pow_succ Complex.I, pow_mul Complex.I, Complex.I_sq]
      push_cast
      ring
    rw [show 2 * (n + 1) = 2 * n + 1 + 1 by ring, Finset.sum_range_succ, Finset.sum_range_succ,
      Finset.sum_range_succ, heven, hodd, Complex.add_im, Complex.add_im, Complex.ofReal_im,
      Complex.im_ofReal_mul, Complex.I_im, ih]
    ring

/-- The rest of the series of the sine after `n` terms. -/
theorem abs_sin_sub_sum_le {x : ℝ} {n : ℕ} (hx : |x| / (2 * n + 1) ≤ 1 / 2) :
    |Real.sin x - ∑ j ∈ Finset.range n, sinTerm x j| ≤ |x| ^ (2 * n) / (2 * n).factorial * 2 := by
  have hnorm : ‖(x * Complex.I : ℂ)‖ = |x| := by simp
  have h := Complex.exp_bound' (x := x * Complex.I) (n := 2 * n) (by rw [hnorm]; push_cast; exact hx)
  rw [hnorm] at h
  refine le_trans ?_ h
  rw [← im_sum_exp_terms, ← Complex.exp_ofReal_mul_I_im, ← Complex.sub_im]
  exact Complex.abs_im_le_norm _

/-! ## The Horner sum -/

theorem sinSeries_succ (a b n k : ℕ) :
    sinSeries a b (n + 1) k =
      ((b * b * (2 * k) * (2 * k + 1) * (sinSeries a b n (k + 1)).2 : ℕ) -
          (a * a : ℕ) * (sinSeries a b n (k + 1)).1,
        b * b * (2 * k) * (2 * k + 1) * (sinSeries a b n (k + 1)).2) := rfl

theorem sinSeries_den_pos {b : ℕ} (hb : 0 < b) (a n : ℕ) : ∀ {k}, 0 < k → 0 < (sinSeries a b n k).2 := by
  induction n with
  | zero => exact fun _ => one_pos
  | succ n ih =>
    intro k hk
    have := ih (Nat.succ_pos k)
    rw [sinSeries_succ]
    positivity

/-- `n` levels from `k = m + 1` on, times term `m`, are the terms from `m` to `m + n`. -/
theorem sinTerm_mul_sinSeries {b : ℕ} (hb : 0 < b) (a n : ℕ) : ∀ m,
    sinTerm (a / b) m * ((sinSeries a b n (m + 1)).1 / (sinSeries a b n (m + 1)).2) =
      ∑ j ∈ Finset.range (n + 1), sinTerm (a / b) (m + j) := by
  induction n with
  | zero => simp [sinSeries]
  | succ n ih =>
    intro m
    have hb' : (b : ℝ) ≠ 0 := by exact_mod_cast hb.ne'
    have hq : ((sinSeries a b n (m + 1 + 1)).2 : ℝ) ≠ 0 := by
      exact_mod_cast (sinSeries_den_pos hb a n (Nat.succ_pos _)).ne'
    have hm : (m : ℝ) + 1 ≠ 0 := by positivity
    have hm' : 2 * ((m : ℝ) + 1) + 1 ≠ 0 := by positivity
    have hrest := ih (m + 1)
    rw [sinTerm_succ] at hrest
    have hshift : ∑ j ∈ Finset.range (n + 1), sinTerm (a / b) (m + (j + 1)) =
        ∑ j ∈ Finset.range (n + 1), sinTerm (a / b) (m + 1 + j) :=
      Finset.sum_congr rfl fun j _ => by rw [add_assoc m 1 j, add_comm 1 j]
    rw [Finset.sum_range_succ', add_zero, hshift, ← hrest, sinSeries_succ]
    push_cast
    field_simp
    ring

/-- The sum that `sin64` rounds, as the number it denotes. -/
theorem mul_sinSeries_eq_sum {b : ℕ} (hb : 0 < b) (a : ℕ) :
    (a / b : ℝ) * ((sinSeries a b sinTerms 1).1 / (sinSeries a b sinTerms 1).2) =
      ∑ j ∈ Finset.range (sinTerms + 1), sinTerm (a / b) j := by
  have h := sinTerm_mul_sinSeries hb a sinTerms 0
  simp only [sinTerm_zero, zero_add] at h
  exact h

/-- Up to 8 the sum is the sine to far more than binary64's precision. -/
theorem abs_sin_sub_sum_le_of_le_eight {x : ℝ} (h0 : 0 ≤ x) (h8 : x ≤ 8) :
    |Real.sin x - ∑ j ∈ Finset.range (sinTerms + 1), sinTerm x j| ≤ 1 / 2 ^ 100 := by
  have habs : |x| ≤ 8 := by rwa [abs_of_nonneg h0]
  have hterms : ((sinTerms + 1 : ℕ) : ℝ) = 41 := by norm_num [sinTerms]
  calc |Real.sin x - ∑ j ∈ Finset.range (sinTerms + 1), sinTerm x j|
      ≤ |x| ^ (2 * 41) / (2 * 41).factorial * 2 := abs_sin_sub_sum_le (by rw [hterms]; linarith)
    _ ≤ 8 ^ (2 * 41) / (2 * 41).factorial * 2 := by gcongr
    _ ≤ 1 / 2 ^ 100 := by norm_num [Nat.factorial]

/-! ## sin64 -/

/-- What `sin64` rounds: `p / q` is the Horner sum at the reduced fraction `a / b`. -/
theorem exists_sin64_fraction (x : DWord) :
    ∃ (a b q : ℕ) (p : ℤ), 0 < b ∧ 0 < q ∧ (a : ℚ) / b = |binary64.real x.toNat| ∧
      (a / b : ℝ) * (p / q) = ∑ j ∈ Finset.range (sinTerms + 1), sinTerm (a / b) j ∧
      sin64 x = BitVec.ofNat 64 (binary64.pack (decide (p < 0))
        (binary64.roundMag (a * p.natAbs * 2 ^ binary64.scale) (b * q))) := by
  have hg : 0 < Nat.gcd (binary64.units x.toNat) (2 ^ binary64.scale) :=
    Nat.gcd_pos_of_pos_right _ (by positivity)
  have hg' : ((Nat.gcd (binary64.units x.toNat) (2 ^ binary64.scale) : ℕ) : ℚ) ≠ 0 := by
    exact_mod_cast hg.ne'
  have hb := Nat.div_pos (Nat.gcd_le_right (binary64.units x.toNat) (by positivity)) hg
  refine ⟨_, _, _, _, hb, sinSeries_den_pos hb _ sinTerms one_pos, ?_, mul_sinSeries_eq_sum hb _,
    by rw [sin64]⟩
  rw [Nat.cast_div (Nat.gcd_dvd_left _ _) hg', Nat.cast_div (Nat.gcd_dvd_right _ _) hg',
    div_div_div_cancel_right₀ hg', binary64.abs_real, FloatFormat.units_eq_magUnits, Nat.cast_pow,
    Nat.cast_ofNat]

/-- The Horner sum in units is the fraction that `sin64` rounds. -/
theorem abs_fraction_mul (a b q c : ℕ) (p : ℤ) :
    |(a / b * (p / q) : ℚ)| * 2 ^ c = ((a * p.natAbs * 2 ^ c : ℕ) : ℚ) / (b * q : ℕ) := by
  have hp : ((p.natAbs : ℕ) : ℚ) = |(p : ℚ)| := by rw [Nat.cast_natAbs, Int.cast_abs]
  rw [abs_mul, abs_div, abs_div, Nat.abs_cast, Nat.abs_cast, Nat.abs_cast]
  push_cast
  rw [hp, div_mul_div_comm, div_mul_eq_mul_div]

/-- Its sign is the numerator's. -/
theorem fraction_eq_signFactor_mul_abs (a b q : ℕ) (p : ℤ) :
    (a / b * (p / q) : ℚ) = FloatFormat.signFactor (decide (p < 0)) * |(a / b * (p / q) : ℚ)| := by
  rcases lt_or_ge p 0 with hp | hp
  · have hp' : (p : ℚ) / q ≤ 0 :=
      div_nonpos_of_nonpos_of_nonneg (by exact_mod_cast hp.le) (Nat.cast_nonneg q)
    have : (a / b * (p / q) : ℚ) ≤ 0 := mul_nonpos_of_nonneg_of_nonpos (by positivity) hp'
    rw [abs_of_nonpos this, decide_eq_true hp, FloatFormat.signFactor, if_pos rfl, neg_mul_neg, one_mul]
  · have hp' : 0 ≤ (p : ℚ) / q := div_nonneg (by exact_mod_cast hp) (Nat.cast_nonneg q)
    have : 0 ≤ (a / b * (p / q) : ℚ) := mul_nonneg (by positivity) hp'
    rw [abs_of_nonneg this, decide_eq_false hp.not_gt, FloatFormat.signFactor,
      if_neg Bool.false_ne_true, one_mul]

/-- `sin64` rounds a number that is the sine to within 2^-100. -/
theorem exists_sum_near_sin (x : DWord) (h8 : |binary64.real x.toNat| ≤ 8) :
    ∃ s : ℚ, |(s : ℝ) - Real.sin (|binary64.real x.toNat| : ℚ)| ≤ 1 / 2 ^ 100 ∧
      ∃ (sign : Bool) (num den : ℕ), 0 < den ∧ s = FloatFormat.signFactor sign * |s| ∧
        |s| * 2 ^ binary64.scale = num / den ∧
        sin64 x = BitVec.ofNat 64 (binary64.pack sign (binary64.roundMag num den)) := by
  obtain ⟨a, b, q, p, hb, hq, hab, hsum, hsin⟩ := exists_sin64_fraction x
  have hx : ((|binary64.real x.toNat| : ℚ) : ℝ) = (a : ℝ) / b := by rw [← hab]; push_cast; rfl
  have hrest := abs_sin_sub_sum_le_of_le_eight (x := (a : ℝ) / b) (by positivity)
    (by rw [← hx]; exact_mod_cast h8)
  refine ⟨a / b * (p / q), ?_, _, _, _, Nat.mul_pos hb hq, fraction_eq_signFactor_mul_abs a b q p,
    abs_fraction_mul a b q _ p, hsin⟩
  rw [hx, abs_sub_comm]
  push_cast
  rwa [hsum]

/-- `sin64` of a magnitude up to 8 is the sine to binary64's precision (log entry 9). -/
theorem sin64_near (x : DWord) (h8 : |binary64.real x.toNat| ≤ 8) :
    |((binary64.real (sin64 x).toNat : ℚ) : ℝ) - Real.sin (|binary64.real x.toNat| : ℚ)| ≤ 1 / 2 ^ 50 := by
  obtain ⟨s, hrest, sign, num, den, hden, hsign, habs, hsin⟩ := exists_sum_near_sin x h8
  have hlt : |s| < 2 ^ 1 := by
    have hone := Real.abs_sin_le_one (|binary64.real x.toNat| : ℚ)
    have htri := (abs_sub_abs_le_abs_sub (s : ℝ) _).trans hrest
    have hsmall : (1 : ℝ) / 2 ^ 100 < 1 := by norm_num
    have : |(s : ℝ)| < 2 ^ 1 := by linarith
    exact_mod_cast this
  obtain ⟨-, hround⟩ := binary64_pack_near hden hsign habs (by norm_num) hlt
  rw [← hsin] at hround
  have hround' := (Rat.cast_le (K := ℝ)).2 hround
  push_cast at hround'
  calc _ ≤ _ := abs_sub_le _ (s : ℝ) _
    _ ≤ 2 ^ 1 / 2 ^ 54 + 1 / 2 ^ 100 := add_le_add hround' hrest
    _ ≤ 1 / 2 ^ 50 := by norm_num

end Sys2Proof.Machine
end

section
/-! PROOFS. P0 to P2 of 40_table_builder.md R105, for SINE_REF and for any other SINE_ROM. -/

namespace Sys2Proof.Machine

/-! ## toF32 -/

theorem scale_binary32 : binary32.scale = 149 := by decide +kernel

/-- 1.0 in units. -/
theorem magUnits_one : (binary32.magUnits 0x3F800000 : Rat) = 2 ^ 149 := by decide +kernel

/-- The next greater binary32 value in units. -/
theorem magUnits_next_one : (binary32.magUnits (0x3F800000 + 1) : Rat) = 2 ^ 149 + 2 ^ 126 := by
  decide +kernel

/-- A quarter of the gap above 1.0 still rounds to 1.0. -/
theorem nearestMag_le_one {q : Rat} {m : Nat} (h : binary32.NearestMag q m)
    (hq : q ≤ 2 ^ 149 + 2 ^ 124) : m ≤ 0x3F800000 := by
  by_contra! hm
  have hmono : (2 ^ 149 + 2 ^ 126 : Rat) ≤ binary32.magUnits m := by
    rw [← magUnits_next_one]
    exact_mod_cast binary32.magUnits_strictMono.monotone hm
  have hdist := (h 0x3F800000).1
  rw [magUnits_one, abs_of_nonneg (a := (binary32.magUnits m : Rat) - q) (by linarith)] at hdist
  rcases abs_cases ((2 : Rat) ^ 149 - q) with ⟨heq, -⟩ | ⟨heq, -⟩ <;> linarith

/-- Up to that quarter no rounding moves a value by more than 2^124 units. -/
theorem nearestMag_dist_le {num den m : Nat} (h : binary32.NearestMag ((num : Rat) / den) m)
    (hden : 0 < den) (hq : (num : Rat) / den ≤ 2 ^ 149 + 2 ^ 124) :
    |(binary32.magUnits m : Rat) - num / den| ≤ 2 ^ 124 := by
  rcases lt_or_ge ((num : Rat) / den) (2 ^ 149) with hlt | hge
  · rw [div_lt_iff₀ (by exact_mod_cast hden), mul_comm] at hlt
    refine (h.dist_le (B := 149) hden (by decide) (by exact_mod_cast hlt)).trans_eq ?_
    rw [show 149 - (binary32.fracBits + 1) = 125 from rfl]
    norm_num
  · refine (h 0x3F800000).1.trans ?_
    rw [magUnits_one, abs_of_nonpos (by linarith)]
    linarith

/-- A pattern of the sign bit and a magnitude up to the infinity's is 32 bits wide. -/
theorem toNat_pack_binary32 (sign : Bool) {m : Nat} (h : m ≤ binary32.infMag) :
    (BitVec.ofNat 32 (binary32.pack sign m)).toNat = binary32.pack sign m :=
  Nat.mod_eq_of_lt (FloatFormat.pack_lt sign (h.trans_lt binary32.infMag_lt))

/-- The value of a binary64 magnitude in units of binary32. -/
theorem abs_real_mul_binary32_scale (x : DWord) :
    |binary64.real x.toNat| * 2 ^ binary32.scale =
      (binary64.units x.toNat : Rat) / (2 ^ (binary64.scale - binary32.scale) : Nat) := by
  obtain ⟨c, hc⟩ : ∃ c, binary64.scale = c + binary32.scale :=
    ⟨925, by rw [scale_binary64, scale_binary32]⟩
  rw [FloatFormat.abs_real, ← FloatFormat.units_eq_magUnits, hc, pow_add, Nat.add_sub_cancel]
  push_cast
  field_simp

/-- `toF32` of a value that is not too far outside [-1, 1] is in [-1, 1] and at most 2^-25 away. -/
theorem toF32_near {x : DWord} (hx : |binary64.real x.toNat| ≤ 1 + 1 / 2 ^ 25) :
    binary32.mag (toF32 x).toNat ≤ 0x3F800000 ∧
      |binary32.real (toF32 x).toNat - binary64.real x.toNat| ≤ 1 / 2 ^ 25 := by
  have hunits := abs_real_mul_binary32_scale x
  have hden : 0 < 2 ^ (binary64.scale - binary32.scale) := by positivity
  have hq : (binary64.units x.toNat : Rat) / (2 ^ (binary64.scale - binary32.scale) : Nat) ≤
      2 ^ 149 + 2 ^ 124 := by
    rw [← hunits, scale_binary32]
    linarith
  have hnum : binary64.units x.toNat < 2 ^ (binary64.scale - binary32.scale) * 2 ^ 150 := by
    have := hq.trans_lt (by norm_num : (2 ^ 149 + 2 ^ 124 : Rat) < 2 ^ 150)
    rw [div_lt_iff₀ (by exact_mod_cast hden), mul_comm] at this
    exact_mod_cast this
  obtain ⟨hfin, hnear⟩ := FloatFormat.roundMag_nearestMag (f := binary32) (by decide) (by decide) hden
    (by decide) (by decide) hnum
  have hsig := hfin.trans binary32.infMag_lt
  rw [toF32, toNat_pack_binary32 _ hfin.le]
  refine ⟨?_, ?_⟩
  · rw [FloatFormat.mag_pack _ hsig]
    exact nearestMag_le_one hnear hq
  · rw [FloatFormat.abs_real_pack_sub hsig (binary64.real_eq_signFactor_mul_abs x.toNat), hunits,
      div_le_iff₀ (by positivity)]
    refine (nearestMag_dist_le hnear hden hq).trans_eq ?_
    rw [scale_binary32]
    norm_num

/-! ## The argument of SINE_REF -/

theorem twoPi64_exact :
    binary64.Finite twoPi64.toNat ∧ binary64.real twoPi64.toNat = 884279719003555 / 2 ^ 47 := by
  unfold FloatFormat.Finite
  decide +kernel

/-- TWO_PI64 is 2 pi to far more than the table's precision (R106). -/
theorem abs_twoPi64_sub_le : |((binary64.real twoPi64.toNat : ℚ) : ℝ) - 2 * Real.pi| ≤ 1 / 2 ^ 40 := by
  rw [twoPi64_exact.2, abs_le]
  push_cast
  constructor <;> linarith [Real.pi_gt_d20, Real.pi_lt_d20]

/-- The two roundings of the argument. -/
theorem exists_sineArg_near {L i : ℕ} (hL : L ≤ 65536) (hi : i < L) :
    ∃ x, sineArg L i = some x ∧
      |binary64.real x.toNat - binary64.real twoPi64.toNat * (i / L)| ≤ 1 / 2 ^ 30 := by
  obtain ⟨hpi, hpireal⟩ := twoPi64_exact
  obtain ⟨hifin, -, hireal⟩ := toF64_exact (n := i) (by omega)
  obtain ⟨hLfin, -, hLreal⟩ := toF64_exact (n := L) (by omega)
  have hi' : (i : ℚ) + 1 ≤ L := by exact_mod_cast hi
  have hL' : (L : ℚ) ≤ 65536 := by exact_mod_cast hL
  have hL1 : (1 : ℚ) ≤ L := by exact_mod_cast (by omega : 1 ≤ L)
  have hL0 : (0 : ℚ) < L := by linarith
  have hLzero : binary64.isZero (toF64 L).toNat = false := by
    rw [FloatFormat.isZero_eq_false_iff, hLreal]
    exact hL0.ne'
  have hprod : |binary64.real twoPi64.toNat * i| ≤ 7 * L := by
    rw [hpireal, abs_of_nonneg (by positivity)]
    linarith
  obtain ⟨p, hp, hpfin, hpnear⟩ := f64mul_near (e := 19) hpi hifin (by decide) (by
    rw [hireal]
    linarith)
  rw [hireal] at hpnear
  have hpnear' : |binary64.real p.toNat / L - binary64.real twoPi64.toNat * (i / L)| ≤ 2 ^ 19 / 2 ^ 54 := by
    rw [← mul_div_assoc, ← sub_div, abs_div, abs_of_pos hL0, div_le_iff₀ hL0]
    exact hpnear.trans (le_mul_of_one_le_right (by positivity) hL1)
  have hquot : |binary64.real p.toNat / (L : ℚ)| < 2 ^ 4 := by
    have hpabs := (abs_sub_abs_le_abs_sub _ _).trans hpnear
    rw [abs_div, abs_of_pos hL0, div_lt_iff₀ hL0]
    linarith
  obtain ⟨x, hx, -, hxnear⟩ := f64div_near (e := 4) hpfin hLfin hLzero (by decide) (by rwa [hLreal])
  rw [hLreal] at hxnear
  refine ⟨x, by rw [sineArg, hp, Option.bind_some, hx], ?_⟩
  calc _ ≤ _ := abs_sub_le _ (binary64.real p.toNat / (L : ℚ)) _
    _ ≤ 2 ^ 4 / 2 ^ 54 + 2 ^ 19 / 2 ^ 54 := add_le_add hxnear hpnear'
    _ ≤ 1 / 2 ^ 30 := by norm_num

/-- The argument of SINE_REF is the true angle to more than the table's precision. -/
theorem exists_sineArg_near_angle {L i : ℕ} (hL : L ≤ 65536) (hi : i < L) :
    ∃ x, sineArg L i = some x ∧
      |((|binary64.real x.toNat| : ℚ) : ℝ) - 2 * Real.pi * i / L| ≤ 1 / 2 ^ 29 := by
  obtain ⟨x, hx, hnear⟩ := exists_sineArg_near hL hi
  refine ⟨x, hx, ?_⟩
  have hnear' := (Rat.cast_le (K := ℝ)).2 hnear
  push_cast at hnear' ⊢
  have hfrac : (i : ℝ) / L ≤ 1 := div_le_one_of_le₀ (by exact_mod_cast hi.le) (Nat.cast_nonneg L)
  have hangle : (2 * Real.pi * i / L : ℝ) = 2 * Real.pi * (i / L) := by ring
  have hpi : |((binary64.real twoPi64.toNat : ℚ) : ℝ) * (i / L) - 2 * Real.pi * (i / L)| ≤ 1 / 2 ^ 40 := by
    rw [← sub_mul, abs_mul, abs_of_nonneg (a := (i : ℝ) / L) (by positivity)]
    exact (mul_le_of_le_one_right (abs_nonneg _) hfrac).trans abs_twoPi64_sub_le
  have hpos : (0 : ℝ) ≤ 2 * Real.pi * (i / L) := by positivity
  rw [hangle, ← abs_of_nonneg hpos]
  refine (abs_abs_sub_abs_le_abs_sub _ _).trans ?_
  calc _ ≤ _ := abs_sub_le _ (((binary64.real twoPi64.toNat : ℚ) : ℝ) * (i / L)) _
    _ ≤ 1 / 2 ^ 30 + 1 / 2 ^ 40 := add_le_add hnear' hpi
    _ ≤ 1 / 2 ^ 29 := by norm_num

/-! ## SINE_REF -/

/-- SINE_REF where its argument is no NaN. The definition is opened as an equation of functions: at `L` and `i`
the kernel would evaluate the argument. -/
theorem sineRef_of_sineArg {L i : ℕ} {x : DWord} (h : sineArg L i = some x) :
    sineRef L i = toF32 (sin64 x) := by
  have hdef : sineRef = fun L i =>
      match sineArg L i with
      | some x => toF32 (sin64 x)
      | none => 0#32 := by
    unfold sineRef
    rfl
  rw [hdef]
  simp only [h]

/-- The binary64 sine that SINE_REF rounds to binary32. -/
theorem exists_sineRef_eq_toF32 {L i : ℕ} (hL : L ≤ 65536) (hi : i < L) :
    ∃ y, sineRef L i = toF32 y ∧
      |((binary64.real y.toNat : ℚ) : ℝ) - Real.sin (2 * Real.pi * i / L)| ≤ 1 / 2 ^ 28 := by
  obtain ⟨x, hx, hangle⟩ := exists_sineArg_near_angle hL hi
  refine ⟨sin64 x, sineRef_of_sineArg hx, ?_⟩
  have hle : (2 * Real.pi * i / L : ℝ) ≤ 7 := by
    have hL0 : (0 : ℝ) < L := by exact_mod_cast (by omega : 0 < L)
    have hi' : (i : ℝ) ≤ L := by exact_mod_cast hi.le
    rw [div_le_iff₀ hL0]
    nlinarith [Real.pi_lt_d2]
  have h8 : |binary64.real x.toNat| ≤ 8 := by
    have : ((|binary64.real x.toNat| : ℚ) : ℝ) ≤ 8 := by linarith [(abs_le.1 hangle).2]
    exact_mod_cast this
  calc _ ≤ _ := abs_sub_le _ (Real.sin (|binary64.real x.toNat| : ℚ)) _
    _ ≤ 1 / 2 ^ 50 + 1 / 2 ^ 29 :=
      add_le_add (sin64_near x h8) ((Real.abs_sin_sub_sin_le _ _).trans hangle)
    _ ≤ 1 / 2 ^ 28 := by norm_num

/-- P1 and P2 of SINE_REF: half a unit in the last place of binary32 leaves room for the other roundings. -/
theorem sineRef_near {L i : ℕ} (hL : L ≤ 65536) (hi : i < L) :
    binary32.mag (sineRef L i).toNat ≤ 0x3F800000 ∧
      |((binary32.real (sineRef L i).toNat : ℚ) : ℝ) - Real.sin (2 * Real.pi * i / L)| ≤ 1 / 2 ^ 24 := by
  obtain ⟨y, hy, hnear⟩ := exists_sineRef_eq_toF32 hL hi
  have hyabs : |binary64.real y.toNat| ≤ 1 + 1 / 2 ^ 25 := by
    have hsin := Real.abs_sin_le_one (2 * Real.pi * i / L)
    have htri := (abs_sub_abs_le_abs_sub _ _).trans hnear
    have hreal : |((binary64.real y.toNat : ℚ) : ℝ)| ≤ ((1 + 1 / 2 ^ 25 : ℚ) : ℝ) := by
      push_cast
      linarith
    exact_mod_cast hreal
  obtain ⟨hmag, hround⟩ := toF32_near hyabs
  rw [hy]
  refine ⟨hmag, ?_⟩
  have hround' := (Rat.cast_le (K := ℝ)).2 hround
  push_cast at hround'
  calc _ ≤ _ := abs_sub_le _ ((binary64.real y.toNat : ℚ) : ℝ) _
    _ ≤ 1 / 2 ^ 25 + 1 / 2 ^ 28 := add_le_add hround' hnear
    _ ≤ 1 / 2 ^ 24 := by norm_num

/-- Settles O26: the binary64 sine is within 2^-28, and its rounding to binary32 within 2^-25 of that. -/
theorem sineRefIsAccurate : Obligations.SineRefIsAccurate := by
  unfold Obligations.SineRefIsAccurate
  exact fun L i _ hL hi => (sineRef_near hL hi).2

/-- Entry 0 of SINE_REF: the argument is +0.0, and the sine of that is +0.0. -/
theorem sineRef_zero {L : ℕ} (hpos : 1 ≤ L) (hL : L ≤ 65536) : sineRef L 0 = 0#32 := by
  obtain ⟨hLfin, hLneg, hLreal⟩ := toF64_exact (n := L) (by omega)
  have hLzero : binary64.isZero (toF64 L).toNat = false := by
    rw [FloatFormat.isZero_eq_false_iff, hLreal]
    exact_mod_cast (by omega : L ≠ 0)
  have hprod : f64mul twoPi64 (toF64 0) = some 0#64 := by decide +kernel
  have hzero : binary64.Finite (0#64).toNat := by unfold FloatFormat.Finite; decide +kernel
  have hunits : binary64.units (0#64).toNat = 0 := by decide +kernel
  have hneg : binary64.neg (0#64).toNat = false := by decide +kernel
  have hquot : f64div 0#64 (toF64 L) = some 0#64 := by
    rw [f64div_of_finite hzero hLfin hLzero, hunits, Nat.zero_mul, FloatFormat.roundMag_zero, hneg, hLneg]
    rfl
  have hsine : toF32 (sin64 0#64) = 0#32 := by decide +kernel
  have harg : sineArg L 0 = some 0#64 := by rw [sineArg, hprod, Option.bind_some, hquot]
  rw [sineRef_of_sineArg harg, hsine]

/-! ## Any SINE_ROM -/

/-- SINE_REF may be the SINE_ROM (R106): it passes the check. -/
theorem entryLegal_sineRef {L i : ℕ} (hL : L ≤ 65536) (hi : i < L) : entryLegal L i (sineRef L i) = true := by
  obtain ⟨hmag, hnear⟩ := sineRef_near hL hi
  refine (entryLegal_iff L i _).2 ⟨?_, hmag, (nearSine_iff hi _).2 hnear⟩
  rintro rfl
  exact sineRef_zero hi hL

/-- Every entry of every SINE_ROM is one that P0, P1 and P2 allow. -/
theorem entryLegal_sineRom (rom : SineRom) {L i : ℕ} (hL : L ≤ 65536) (hi : i < L) :
    entryLegal L i (sineRom rom L i) = true := by
  cases rom with
  | reference => exact entryLegal_sineRef hL hi
  | free =>
    rcases sineFree_cases L i with ⟨hlegal, hfree⟩ | ⟨-, hfree⟩
    · exact (congrArg (entryLegal L i) hfree).trans hlegal
    · exact (congrArg (entryLegal L i) hfree).trans (entryLegal_sineRef hL hi)

/-- Settles O24: P0 of a legal entry. -/
theorem sineRomStartsAtZero : Obligations.SineRomStartsAtZero := by
  unfold Obligations.SineRomStartsAtZero
  intro rom L hpos hL
  obtain ⟨hfirst, -, -⟩ := (entryLegal_iff L 0 _).1 (entryLegal_sineRom rom hL hpos)
  exact hfirst rfl

/-- Settles O25: P1 of a legal entry. -/
theorem sineRomWithinOne : Obligations.SineRomWithinOne := by
  unfold Obligations.SineRomWithinOne
  intro rom L i _ hL hi
  obtain ⟨-, hmag, -⟩ := (entryLegal_iff L i _).1 (entryLegal_sineRom rom hL hi)
  exact hmag

/-- Settles O50: P2 of a legal entry. -/
theorem sineRomIsAccurate : Obligations.SineRomIsAccurate := by
  unfold Obligations.SineRomIsAccurate
  intro rom L i _ hL hi
  obtain ⟨-, -, hnear⟩ := (entryLegal_iff L i _).1 (entryLegal_sineRom rom hL hi)
  exact (nearSine_iff hi _).1 hnear

end Sys2Proof.Machine
end

section
/-! PROOFS. The binary32 product (41_modulation_engine.md R122, R129): correct rounding, the special cases, a
sample of 1.0 and an entry in [-1, 1]. -/

namespace Sys2Proof.Machine

namespace FloatFormat

/-- A pattern is its sign and its magnitude field put together again. -/
theorem pack_neg_mag {f : FloatFormat} {bits : Nat} (h : bits < 2 ^ (f.signPos + 1)) :
    f.pack (f.neg bits) (f.mag bits) = bits := by
  rw [pow_succ] at h
  have hdiv : bits / 2 ^ f.signPos < 2 := Nat.div_lt_of_lt_mul h
  have hsplit := Nat.div_add_mod bits (2 ^ f.signPos)
  rw [pack, neg, mag, Nat.testBit_eq_decide_div_mod_eq, Nat.mod_eq_of_lt hdiv]
  rcases Nat.le_one_iff_eq_zero_or_eq_one.1 (Nat.le_of_lt_succ hdiv) with h0 | h1
  · simpa [h0] using hsplit
  · simpa [h1] using hsplit

/-- With an infinite operand the product is a NaN or an infinity. -/
theorem mul_of_isInf {f : FloatFormat} {a b : Nat} (hne : f.mul a b ≠ none)
    (hinf : f.isInf a = true ∨ f.isInf b = true) :
    f.mul a b = some (f.pack (f.neg a ^^ f.neg b) f.infMag) := by
  unfold mul at hne ⊢
  rw [if_neg fun hnan => hne (if_pos hnan), if_pos (Bool.or_eq_true_iff.2 hinf)]

/-- A zero is 0 units. -/
theorem units_of_isZero {f : FloatFormat} {bits : Nat} (h : f.isZero bits = true) : f.units bits = 0 := by
  rw [units_eq_magUnits, of_decide_eq_true h, magUnits_zero]

section Magnitude

variable {f : FloatFormat} {num den m : Nat}

/-- Rounding does not pass a field from below. -/
theorem NearestMag.le_of_le {q : Rat} (h : f.NearestMag q m) {l : Nat} (hq : q ≤ f.magUnits l) : m ≤ l := by
  by_contra! hlt
  have hstep : (f.magUnits l : Rat) < f.magUnits m := by exact_mod_cast f.magUnits_strictMono hlt
  have hdist := (h l).1
  rw [abs_of_nonneg (by linarith), abs_of_nonneg (by linarith)] at hdist
  linarith

theorem roundMag_le_of_le (hf : f.fracBits ≠ 0) (hden : 0 < den) (hq : (num : Rat) / den ≤ f.magUnits m) :
    f.roundMag num den ≤ m := by
  obtain ⟨n, hn, hround⟩ := exists_nearestMag_roundMag hf num hden
  rw [hround]
  exact (min_le_left _ _).trans (hn.le_of_le hq)

theorem roundMag_of_exact (hf : f.fracBits ≠ 0) (hden : 0 < den) (hm : m ≤ f.infMag)
    (hq : (num : Rat) / den = f.magUnits m) : f.roundMag num den = m := by
  obtain ⟨n, hn, hround⟩ := exists_nearestMag_roundMag hf num hden
  rw [hq] at hn
  rw [hround, hn.eq_of_exact, min_eq_left hm]

end Magnitude

end FloatFormat

/-! ## Rounding -/

theorem f32mul_of_finite {a b : Sample} (ha : binary32.Finite a.toNat) (hb : binary32.Finite b.toNat) :
    f32mul a b = some (BitVec.ofNat 32 (binary32.pack (binary32.neg a.toNat ^^ binary32.neg b.toNat)
      (binary32.roundMag (binary32.units a.toNat * binary32.units b.toNat) (2 ^ binary32.scale)))) := by
  rw [f32mul, FloatFormat.mul_of_finite ha hb, Option.map_some]

/-- Settles O20: `f32mul` of finite values is `roundMag` of the exact product with the XOR of the signs, and
`roundMag` rounds correctly (`pack_roundMag_nearestEven`, `roundMag_eq_infMag`). -/
theorem productIsCorrectlyRounded : Obligations.ProductIsCorrectlyRounded := by
  unfold Obligations.ProductIsCorrectlyRounded
  intro a b ha hb
  have hf : binary32.fracBits ≠ 0 := by decide
  have he : 2 ≤ binary32.expBits := by decide
  have hden : 0 < 2 ^ binary32.scale := by positivity
  have hq := binary32.abs_real_mul_mul a.toNat b.toNat
  have hsign := binary32.real_mul_eq_signFactor_mul_abs a.toNat b.toNat
  rw [f32mul_of_finite ha hb]
  constructor
  · intro hlt
    obtain ⟨hfin, hnear⟩ := FloatFormat.pack_roundMag_nearestEven hf he hden hsign hq hlt
    refine ⟨_, rfl, ?_⟩
    rw [toNat_pack_binary32 _ hfin.le]
    exact ⟨hnear, FloatFormat.neg_pack _ (hfin.trans binary32.infMag_lt)⟩
  · intro hle
    rw [FloatFormat.roundMag_eq_infMag hf he hden hq hle]

/-! ## Special cases -/

/-- Settles O21: the three branches of `FloatFormat.mul`, the last at a magnitude of 0. -/
theorem productSpecialCases : Obligations.ProductSpecialCases := by
  unfold Obligations.ProductSpecialCases
  intro a b
  refine ⟨f32mul_eq_none_iff a b, ?_, ?_⟩
  · intro hne hinf
    rw [f32mul] at hne ⊢
    rw [FloatFormat.mul_of_isInf (fun h => hne (by rw [h, Option.map_none])) hinf, Option.map_some]
  · intro ha hb hzero
    have hunits : binary32.units a.toNat * binary32.units b.toNat = 0 :=
      Nat.mul_eq_zero.2 (hzero.imp FloatFormat.units_of_isZero FloatFormat.units_of_isZero)
    rw [f32mul_of_finite ha hb, hunits, FloatFormat.roundMag_zero]

/-! ## Scaling -/

/-- 1.0 is positive, finite and `2 ^ scale` units. -/
theorem one_binary32 : binary32.neg (0x3F800000#32).toNat = false ∧
    binary32.Finite (0x3F800000#32).toNat ∧ binary32.units (0x3F800000#32).toNat = 2 ^ binary32.scale := by
  unfold FloatFormat.Finite
  decide +kernel

/-- Settles O22: the exact product is the entry, so no rounding moves it. -/
theorem unitSampleReproducesTheEntry : Obligations.UnitSampleReproducesTheEntry := by
  unfold Obligations.UnitSampleReproducesTheEntry
  intro t ht
  obtain ⟨hpos, hfin, hone⟩ := one_binary32
  have hq : ((2 ^ binary32.scale * binary32.units t.toNat : Nat) : Rat) / (2 ^ binary32.scale : Nat) =
      binary32.magUnits (binary32.mag t.toNat) := by
    rw [FloatFormat.units_eq_magUnits, Nat.cast_mul, mul_div_cancel_left₀ _ (by positivity)]
  rw [f32mul_of_finite hfin ht, hpos, hone,
    FloatFormat.roundMag_of_exact (by decide) (by positivity) ht.2.le hq, Bool.false_xor,
    FloatFormat.pack_neg_mag ht.1, BitVec.ofNat_toNat, BitVec.setWidth_eq]

/-- An entry of magnitude at most 1.0 is finite, and at most `2 ^ scale` units. -/
theorem finite_and_units_le_of_mag_le_one {t : Sample} (ht : binary32.mag t.toNat ≤ 0x3F800000) :
    binary32.Finite t.toNat ∧ binary32.units t.toNat ≤ 2 ^ binary32.scale := by
  obtain ⟨-, ⟨-, hfin⟩, hone⟩ := one_binary32
  refine ⟨⟨t.isLt, ht.trans_lt hfin⟩, ?_⟩
  rw [← hone]
  exact binary32.magUnits_strictMono.monotone ht

/-- Settles O23: the exact product is no larger than the sample, and rounding does not pass the sample. -/
theorem outputNoLargerThanInput : Obligations.OutputNoLargerThanInput := by
  unfold Obligations.OutputNoLargerThanInput
  intro a t ha ht
  obtain ⟨hfin, hle⟩ := finite_and_units_le_of_mag_le_one ht
  have hden : 0 < 2 ^ binary32.scale := by positivity
  have hq : ((binary32.units a.toNat * binary32.units t.toNat : Nat) : Rat) / (2 ^ binary32.scale : Nat) ≤
      binary32.magUnits (binary32.mag a.toNat) := by
    rw [div_le_iff₀ (by positivity), ← FloatFormat.units_eq_magUnits]
    exact_mod_cast Nat.mul_le_mul_left _ hle
  have hmag := FloatFormat.roundMag_le_of_le (f := binary32) (by decide) hden hq
  have hlt := hmag.trans_lt ha.2
  refine ⟨_, f32mul_of_finite ha hfin, ?_⟩
  rw [toNat_pack_binary32 _ hlt.le, FloatFormat.mag_pack _ (hlt.trans binary32.infMag_lt)]
  exact ⟨FloatFormat.finite_pack _ hlt, hmag⟩

end Sys2Proof.Machine
end

section
/-! PROOFS. The modulation engine (41_modulation_engine.md R121 to R130): a frame, its two lanes, a buffer,
and a run of buffers from a good state. -/

namespace Sys2Proof.Machine

/-! ## A frame -/

/-- The word form of `advancePhase_toNat`. -/
theorem advancePhase_eq {p L : Word} (h : p.toNat < L.toNat) :
    advancePhase p L = BitVec.ofNat 32 ((p.toNat + 1) % L.toNat) := by
  rw [← advancePhase_toNat h, BitVec.ofNat_toNat, BitVec.setWidth_eq]

theorem exec_frame (left right : Sample) (s : State) :
    exec (.frame left right) s = s.modulate ⟨left, right⟩ := rfl

/-- Settles O27: `State.modulate_spec` with its advance as a remainder, and the fault. -/
theorem frameOutcome : Obligations.FrameOutcome := by
  unfold Obligations.FrameOutcome
  intro s left right
  rw [exec_frame]
  refine ⟨fun hl hr => ?_, State.modulate_fault⟩
  rw [← advancePhase_eq hl, ← advancePhase_eq hr]
  exact s.modulate_spec ⟨left, right⟩ ⟨hl, hr⟩

/-- The left lane's product, with the state it leaves. -/
def State.leftProduct (s : State) (f : Frame) : Sample × State :=
  s.mulSample f.left (s.lutEntry s.phaseL.toNat)

/-- The right lane's product, taken after the left one (log entry 5), with the state it leaves. -/
def State.rightProduct (s : State) (f : Frame) : Sample × State :=
  (s.leftProduct f).2.mulSample f.right (s.lutEntry s.phaseR.toNat)

@[simp] theorem State.rightProduct_framesOut (s : State) (f : Frame) :
    (s.rightProduct f).2.framesOut = s.framesOut := by
  simp [State.rightProduct, State.leftProduct]

theorem State.modulate_eq {s : State} (f : Frame)
    (hin : s.phaseL.toNat < s.length.toNat ∧ s.phaseR.toNat < s.length.toNat) :
    s.modulate f =
      .next (((s.rightProduct f).2.emitFrame ⟨(s.leftProduct f).1, (s.rightProduct f).1⟩).setPhases
        (advancePhase s.phaseL s.length) (advancePhase s.phaseR s.length)) := by
  rw [State.modulate, if_pos hin]
  rfl

/-- A frame that completes advances the phases and emits the two products. -/
theorem State.modulate_next {s t : State} {f : Frame} (h : s.modulate f = .next t) :
    t.phaseL = advancePhase s.phaseL s.length ∧ t.phaseR = advancePhase s.phaseR s.length ∧
    t.framesOut = s.framesOut ++ [⟨(s.leftProduct f).1, (s.rightProduct f).1⟩] := by
  rw [State.modulate_eq f (State.phases_of_modulate h)] at h
  cases h
  exact ⟨rfl, rfl, by simp⟩

/-- A product that is no NaN does not depend on the state, so not on the draws. -/
theorem State.mulSample_fst_eq {a b : Sample} (h : f32mul a b ≠ none) (s t : State) :
    (s.mulSample a b).1 = (t.mulSample a b).1 := by
  obtain ⟨r, hr⟩ := Option.ne_none_iff_exists'.1 h
  rw [s.mulSample_of_some hr, t.mulSample_of_some hr]

/-- Settles O30: each lane's output and phase by `State.modulate_next`. -/
theorem lanesAreIndependent : Obligations.LanesAreIndependent := by
  unfold Obligations.LanesAreIndependent
  intro s t t' l l' r r' h h'
  rw [exec_frame] at h h'
  obtain ⟨hl, hr, hout⟩ := State.modulate_next h
  obtain ⟨hl', hr', hout'⟩ := State.modulate_next h'
  refine ⟨hl.trans hl'.symm, hr.trans hr'.symm, _, _, hout, hout', ?_, ?_⟩
  · rintro rfl
    rfl
  · rintro rfl hnumber
    exact State.mulSample_fst_eq hnumber _ _

/-! ## A buffer -/

/-- An admitted BUFFER with the phases in range completes: the output frames are the products with the
entries at the phases, frame by frame, and the phases end as many frames on. -/
theorem execBuffer_completes {s : State} {fs : List Frame} (ha : s.admits fs.length = true)
    (hin : s.phaseL.toNat < s.length.toNat ∧ s.phaseR.toNat < s.length.toNat) :
    ∃ outs d, execBuffer fs s = .next (s.afterBuffer outs
        (BitVec.ofNat 32 ((s.phaseL.toNat + fs.length) % s.length.toNat))
        (BitVec.ofNat 32 ((s.phaseR.toNat + fs.length) % s.length.toNat)) d) ∧
      outs.length = fs.length ∧
      ∀ k f o, fs[k]? = some f → outs[k]? = some o →
        ProductOf f.left (s.lutEntry ((s.phaseL.toNat + k) % s.length.toNat)) o.left ∧
        ProductOf f.right (s.lutEntry ((s.phaseR.toNat + k) % s.length.toNat)) o.right := by
  obtain ⟨outs, d, hall, hlen, hproducts⟩ := modulateAll_spec fs s.openOutput hin
  refine ⟨outs, d, ?_, hlen, hproducts⟩
  rw [execBuffer_admitted ha, hall]
  rfl

/-- An admitted BUFFER of at least one frame faults at the first frame where a phase is out of range. -/
theorem execBuffer_fault {s : State} {fs : List Frame} (ha : s.admits fs.length = true) (hne : fs ≠ [])
    (hout : ¬ (s.phaseL.toNat < s.length.toNat ∧ s.phaseR.toNat < s.length.toNat)) :
    execBuffer fs s = .fault .realTimeFault := by
  obtain ⟨f, fs, rfl⟩ := List.exists_cons_of_ne_nil hne
  have hfault : s.openOutput.modulate f = .fault .realTimeFault := State.modulate_fault hout
  rw [execBuffer_admitted ha, modulateAll, hfault]

/-- Settles O28: admitted and in range, not admitted, admitted and out of range. -/
theorem bufferOutcome : Obligations.BufferOutcome := by
  unfold Obligations.BufferOutcome
  intro s fs
  refine ⟨fun hrun hn hl hr => ?_, fun hguard => ?_, fun hrun hn => ?_⟩
  · exact execBuffer_completes ((s.admits_iff _).2 ⟨hrun, hn⟩) ⟨hl, hr⟩
  · refine execBuffer_refused (Bool.eq_false_iff.2 fun ha => ?_)
    obtain ⟨hrun, hn⟩ := (s.admits_iff _).1 ha
    exact hguard.elim (fun hstopped => by simp [hrun] at hstopped) fun hne => hne hn
  · exact execBuffer_fault ((s.admits_iff _).2 ⟨hrun, hn⟩)

/-! ## RealTimeFault -/

/-- A safe step may still end in AccessError. -/
theorem safeStep_iff {s : State} : SafeStep s ↔ step s ≠ .fault .realTimeFault := by
  unfold SafeStep
  split <;> simp_all

/-- A host access ends in no fault but AccessError. -/
theorem exec_decodeAccess_ne_realTimeFault (dir : Direction) (z : AccessSize) (off : Offset) (v : Word)
    (s : State) : exec (decodeAccess dir z off v) s ≠ .fault .realTimeFault := by
  rcases decodeAccess_cases dir z off v with h | h | ⟨d, h⟩ <;> rw [h]
  · show execRd off s ≠ _
    unfold execRd
    split <;> nofun
  · show execWr off v s ≠ _
    rcases execWr_cases off v s with h | h | ⟨c, h⟩ | ⟨r, -, h⟩ | ⟨-, -, -, L, -, -, -, h⟩ |
      ⟨-, -, -, -, -, h⟩ | ⟨-, -, h⟩ <;> rw [h] <;> nofun
  · nofun

/-- The phases of a running good state are below LENGTH (10_state.md R24, R48). -/
theorem State.Inv.phases_of_running {s : State} (h : s.Inv) (hrunning : s.running = true) :
    s.phaseL.toNat < s.length.toNat ∧ s.phaseR.toNat < s.length.toNat := by
  obtain ⟨-, ⟨hrange, -⟩, ⟨-, -, hflag⟩, -⟩ := h
  exact hrange (hflag hrunning).1

/-- A good state admits a buffer only while running, and then its phases are in range. -/
theorem execBuffer_ne_realTimeFault {s : State} (h : s.Inv) (fs : List Frame) :
    execBuffer fs s ≠ .fault .realTimeFault := by
  cases ha : s.admits fs.length with
  | false =>
    rw [execBuffer_refused ha]
    nofun
  | true =>
    obtain ⟨hrunning, -⟩ := (s.admits_iff _).1 ha
    obtain ⟨outs, d, hb, -⟩ := execBuffer_completes ha (h.phases_of_running hrunning)
    rw [hb]
    nofun

/-- Settles O41: of the agents' steps only a buffer can end in RealTimeFault, and from a good state it does
not (`execBuffer_ne_realTimeFault`). -/
theorem realTimeFaultIsUnreachable : Obligations.RealTimeFaultIsUnreachable := by
  unfold Obligations.RealTimeFaultIsUnreachable
  intro s hs
  rw [safeStep_iff]
  match hp : s.pending with
  | [] =>
    rw [step_idle hp]
    nofun
  | .reset :: rest =>
    rw [step_reset hp]
    nofun
  | .host w :: rest =>
    rw [step_host hp]
    cases hd : decode (.bus w) with
    | ok i =>
      obtain ⟨dir, z, off, v, -, rfl⟩ := decodeBus_eq_ok hd
      exact exec_decodeAccess_ne_realTimeFault dir z off v _
    | error e => nofun
  | .stream ws :: rest =>
    rw [step_stream hp]
    cases hd : decode (.buffer ws) with
    | ok i =>
      obtain ⟨-, rfl⟩ := (decodeBuffer_eq_ok_iff ws i).1 hd
      exact execBuffer_ne_realTimeFault (s := s.setPending rest) hs _
    | error e => nofun

/-! ## A run of buffers -/

theorem State.Inv.fpbActive_pos {s : State} (h : s.Inv) (hrunning : s.running = true) :
    1 ≤ s.fpbActive.toNat := by
  obtain ⟨-, -, ⟨-, -, hflag⟩, -⟩ := h
  obtain ⟨-, hpos, -⟩ := hflag hrunning
  exact hpos

/-- From a good running state a delivered buffer of FPB_ACTIVE frames is one step that completes. -/
theorem step_of_buffer {s : State} {ws : List DWord} {rest : List Arrival} (h : s.Inv)
    (hrunning : s.running = true) (hp : s.pending = .stream ws :: rest)
    (hlen : ws.length = s.fpbActive.toNat) :
    ∃ outs d, step s = .next ((s.setPending rest).afterBuffer outs
      (BitVec.ofNat 32 ((s.phaseL.toNat + s.fpbActive.toNat) % s.length.toNat))
      (BitVec.ofNat 32 ((s.phaseR.toNat + s.fpbActive.toNat) % s.length.toNat)) d) := by
  have hpos := h.fpbActive_pos hrunning
  have hdecode : decode (.buffer ws) = .ok (.buffer (ws.map Frame.ofBits)) :=
    (decodeBuffer_eq_ok_iff _ _).2 ⟨⟨hlen ▸ hpos, hlen ▸ s.fpbActive.isLt⟩, rfl⟩
  have hn : (ws.map Frame.ofBits).length = s.fpbActive.toNat := by rw [List.length_map, hlen]
  obtain ⟨outs, d, hb, -⟩ := execBuffer_completes (s := s.setPending rest)
    ((State.admits_iff _ _).2 ⟨hrunning, hn⟩) (h.phases_of_running hrunning)
  rw [step_stream hp, hdecode, ← hn]
  exact ⟨outs, d, hb⟩

/-- `n` frames on and then `j * n` more are `(j + 1) * n` frames on, modulo LENGTH. -/
theorem toNat_phase_add_mod (p n j : Nat) {L : Word} (hpos : 0 < L.toNat) :
    ((BitVec.ofNat 32 ((p + n) % L.toNat)).toNat + j * n) % L.toNat = (p + (j + 1) * n) % L.toNat := by
  have hlt : (p + n) % L.toNat < 2 ^ 32 := (Nat.mod_lt _ hpos).trans L.isLt
  rw [BitVec.toNat_ofNat, Nat.mod_eq_of_lt hlt, Nat.mod_add_mod]
  congr 1
  ring

theorem run_succ_of_step {s t : State} (h : step s = .next t) (k : Nat) :
    Host.Core.run Sys2Proof.core (k + 1) s = Host.Core.run Sys2Proof.core k t := by
  have hcore : Sys2Proof.core.step s = .next t := h
  simp only [Host.Core.run, hcore]

/-- Settles O29, by induction on the buffers: a step moves the phases FPB_ACTIVE frames on (`step_of_buffer`)
and keeps the invariant (O39), and the rest of the run starts there. -/
theorem runOfBuffersAdvancesThePhases : Obligations.RunOfBuffersAdvancesThePhases := by
  unfold Obligations.RunOfBuffersAdvancesThePhases
  intro s bufs
  induction bufs generalizing s with
  | nil =>
    intro rest hs hrunning hp _
    obtain ⟨hl, hr⟩ := hs.phases_of_running hrunning
    exact ⟨s, rfl, by simp [Nat.mod_eq_of_lt hl], by simp [Nat.mod_eq_of_lt hr], hrunning, hp, rfl, rfl,
      rfl⟩
  | cons b bufs ih =>
    intro rest hs hrunning hp hlen
    obtain ⟨hb, hbufs⟩ := List.forall_mem_cons.1 hlen
    obtain ⟨outs, d, hstep⟩ := step_of_buffer hs hrunning hp hb
    have hpos : 0 < s.length.toNat := Nat.zero_lt_of_lt (hs.phases_of_running hrunning).1
    obtain ⟨t, hrun, hl, hr, hkept⟩ := ih _ rest (stepKeepsTheInvariant s _ hs hstep) hrunning rfl hbufs
    exact ⟨t, (run_succ_of_step hstep _).trans hrun, hl.trans (toNat_phase_add_mod _ _ _ hpos),
      hr.trans (toNat_phase_add_mod _ _ _ hpos), hkept⟩

end Sys2Proof.Machine
end

section
/-! PROOFS. The control commands and the host port (42_control.md): how a unit reaches its instruction, what
each command does, and what a host read or write does at every offset. -/

namespace Sys2Proof.Machine

/-! ## Dispatch of commands (R140) -/

/-- The dispatch of the port performs the command that the decoder reads. -/
theorem cmdWrite_eq_exec (w : Word) (s : State) : cmdWrite w s = exec (decodeCommand w) s := by
  obtain ⟨rsv, op, rfl⟩ := exists_commandWord_eq w
  cases h : commandReserved rsv op with
  | true =>
    rw [decodeCommand_reserved h]
    simp [cmdWrite, h, exec]
  | false => obtain ⟨rfl, rfl | rfl | rfl | rfl⟩ := command_of_not_reserved h <;> rfl

theorem exec_wr_cmd (w : Word) (s : State) : exec (.wr cmdOffset w) s = exec (decodeCommand w) s :=
  cmdWrite_eq_exec w s

/-! ## Units (30_encoding.md R80, R85) -/

theorem step_withUnit_bus (s : State) {w : DWord} {i : Instr} (h : decode (.bus w) = .ok i) :
    step (s.withUnit (.bus w)) = exec i s := by
  have hp : (s.withUnit (.bus w)).pending = .host w :: s.pending := rfl
  rw [step_host hp, h]
  rfl

theorem step_withUnit_buffer (s : State) {ws : List DWord} (hpos : 1 ≤ ws.length)
    (hshort : ws.length < 2 ^ 32) :
    step (s.withUnit (.buffer ws)) = exec (.buffer (ws.map Frame.ofBits)) s := by
  have hp : (s.withUnit (.buffer ws)).pending = .stream ws :: s.pending := rfl
  have hd : decode (.buffer ws) = .ok (.buffer (ws.map Frame.ofBits)) :=
    (decodeBuffer_eq_ok_iff _ _).2 ⟨⟨hpos, hshort⟩, rfl⟩
  rw [step_stream hp, hd]
  rfl

/-- A command word arrives as the BUS write of it to CMD. -/
theorem step_withUnit_cmd (s : State) (w : Word) :
    step (s.withUnit (.cmd w)) = exec (decodeCommand w) s := by
  have hd : decode (.bus (busWord .write .four cmdOffset w)) = .ok (.wr cmdOffset w) :=
    (decodeBus_busWord _ _ _ _).trans (congrArg _ (decodeAccess_write_aligned w rfl))
  exact (step_withUnit_bus s hd).trans (exec_wr_cmd w s)

/-- Settles O4: each unit arrives as a BUS access or as a buffer, and a write to CMD is the decoded command
(`exec_wr_cmd`). -/
theorem unitsReachTheirInstruction : Obligations.UnitsReachTheirInstruction := by
  unfold Obligations.UnitsReachTheirInstruction
  refine ⟨step_withUnit_cmd, fun s w => exec_wr_cmd w s, fun s _ _ => step_withUnit_bus s,
    fun s _ => step_withUnit_buffer s, fun s w => ?_⟩
  exact step_withUnit_buffer s (ws := [w]) (by simp) (by simp)

/-! ## The commands (R141 to R144) -/

/-- Settles O12: NOP is one write of ERR. -/
theorem nopOnlyClearsErr : Obligations.NopOnlyClearsErr := by
  unfold Obligations.NopOnlyClearsErr
  exact ⟨rfl, fun _ => rfl⟩

/-- No buffer is admitted while RUNNING is 0 (41_modulation_engine.md R124). -/
theorem State.admits_of_stopped {s : State} (hstopped : s.running = false) (n : Nat) :
    s.admits n = false := by
  simp [State.admits, hstopped]

/-- Settles O13: STOP is two register writes, and the guard of BUFFER needs RUNNING. -/
theorem stopClosesTheStream : Obligations.StopClosesTheStream := by
  unfold Obligations.StopClosesTheStream
  exact ⟨rfl, fun _ => ⟨rfl, State.admits_of_stopped rfl⟩⟩

/-- The state START leaves, its checks in order (R142). -/
def State.afterStart (s : State) : State :=
  if s.running = true then s.setErr .busy
  else if s.tableValid = false then s.setErr .noTable
  else if s.fpb = 0#32 ∨ s.params.fpbMax < s.fpb.toNat then s.setErr .badFpb
  else (((s.setFpbActive s.fpb).setPhases 0#32 0#32).setRunning true).setErr .ok

theorem State.fpbLegal_eq_false_iff (s : State) :
    s.fpbLegal = false ↔ s.fpb = 0#32 ∨ s.params.fpbMax < s.fpb.toNat := by
  simp only [State.fpbLegal, Bool.and_eq_false_iff, Bool.not_eq_false', beq_iff_eq,
    decide_eq_false_iff_not, not_le]

/-- START completes in every state. -/
theorem execStart_eq (s : State) : execStart s = .next s.afterStart := by
  simp only [execStart, State.afterStart, State.error, State.fpbLegal_eq_false_iff,
    apply_ite Host.Outcome.next]

/-- Every check that fails writes a code other than OK, so OK says that START opened the stream. -/
theorem State.afterStart_of_ok {s : State} (hok : s.afterStart.err = 0#4) :
    s.afterStart = (((s.setFpbActive s.fpb).setPhases 0#32 0#32).setRunning true).setErr .ok := by
  unfold State.afterStart at hok ⊢
  split at hok
  · simp [ErrCode.bits] at hok
  · split at hok
    · simp [ErrCode.bits] at hok
    · split at hok
      · simp [ErrCode.bits] at hok
      · rename_i hstopped htable hfpb
        rw [if_neg hstopped, if_neg htable, if_neg hfpb]

/-- Settles O14: `execStart_eq` has the checks, and the opened stream runs with FPB_ACTIVE = FPB. -/
theorem startOutcome : Obligations.StartOutcome := by
  unfold Obligations.StartOutcome
  refine ⟨rfl, fun s => ⟨execStart_eq s, fun t ht hok n => ?_⟩⟩
  obtain rfl : s.afterStart = t := Host.Outcome.next.inj ((execStart_eq s).symm.trans ht)
  rw [State.afterStart_of_ok hok, State.admits_iff]
  simp

theorem commandReserved_eq_true_iff (rsv : BitVec 28) (op : BitVec 4) :
    commandReserved rsv op = true ↔ rsv ≠ 0#28 ∨ 4 ≤ op.toNat := by
  simp [commandReserved, BitVec.le_def]

/-- Settles O15: reserved fields decode to ILLEGAL_CMD, which a write of them to CMD performs. -/
theorem illegalCommandOnlySetsErr : Obligations.IllegalCommandOnlySetsErr := by
  unfold Obligations.IllegalCommandOnlySetsErr
  refine ⟨fun _ _ _ => rfl, fun w s hfields => ?_⟩
  have hdecode : decodeCommand w = .illegalCmd (w.extractLsb' 4 28) (w.extractLsb' 0 4) :=
    if_pos ((commandReserved_eq_true_iff _ _).2 hfields)
  exact ⟨hdecode, (exec_wr_cmd w s).trans (by rw [hdecode]; rfl)⟩

/-! ## Host reads (R145) -/

theorem exec_rd_of_target {off : Offset} {x : Target} (s : State) (ha : Offset.aligned off = true)
    (hx : target off = x) : exec (.rd off) s = .next (s.setReadData (s.readTarget x)) :=
  hx ▸ execRd_aligned s ha

theorem exec_rd_misaligned {off : Offset} (s : State) (h : Offset.aligned off = false) :
    exec (.rd off) s = .fault (.accessError off) := by
  show execRd off s = _
  simp [execRd, accessLegal_four, h, raiseAccessError]

/-- Past the registers and below the window every offset is reserved (10_state.md R39). -/
theorem target_reserved {off : Offset} (hlow : 0x00028 ≤ off.toNat) (hhigh : off.toNat < 0x40000) :
    target off = .reserved := by
  obtain ⟨k, hk⟩ : ∃ k, off.toNat / 4 = k + 10 := Nat.exists_eq_add_of_le' (by omega)
  rw [target_register hhigh, hk]
  rfl

theorem toNat_lutOffset {i : Nat} (h : i < 65536) : (lutOffset i).toNat = 0x40000 + 4 * i :=
  Nat.mod_eq_of_lt (by omega)

theorem aligned_lutOffset {i : Nat} (h : i < 65536) : Offset.aligned (lutOffset i) = true := by
  rw [Offset.aligned_iff, toNat_lutOffset h]
  omega

theorem target_lutOffset {i : Nat} (h : i < 65536) : target (lutOffset i) = .lutWindow i := by
  have hi := toNat_lutOffset h
  rw [target_lut (by omega), hi, Nat.add_sub_cancel_left, Nat.mul_div_cancel_left i (by decide)]

/-- Settles O31: an aligned read returns what its target holds (`exec_rd_of_target`), so each clause is the
target of its offset; the others are AccessErrors. -/
theorem readsFollowTheRegisterMap : Obligations.ReadsFollowTheRegisterMap := by
  unfold Obligations.ReadsFollowTheRegisterMap
  intro s
  refine ⟨exec_rd_of_target s (x := .cmd) rfl rfl, exec_rd_of_target s (x := .status) rfl rfl,
    exec_rd_config .sampleRate s, exec_rd_config .freqLo s, exec_rd_config .freqHi s,
    exec_rd_config .fpb s, exec_rd_of_target s (x := .length) rfl rfl,
    exec_rd_of_target s (x := .phaseL) rfl rfl, exec_rd_of_target s (x := .phaseR) rfl rfl,
    exec_rd_of_target s (x := .fpbActive) rfl rfl, ?_, ?_, ?_, ?_⟩
  · exact fun off ha hlow hhigh => exec_rd_of_target s ha (target_reserved hlow hhigh)
  · exact fun i hi => exec_rd_of_target s (aligned_lutOffset hi) (target_lutOffset hi)
  · exact fun off => exec_rd_misaligned s
  · exact fun size off d _ => rfl

/-! ## Host writes (R146, R147) -/

/-- A configuration register is locked while running. -/
theorem cfgWrite_eq (r : ConfigReg) (v : Word) (s : State) :
    cfgWrite r v s = .next
      (if s.running = true then s.setErr .cfgLocked else (s.setConfig r v).setErr .ok) := by
  simp only [cfgWrite, State.error, apply_ite Host.Outcome.next]

theorem exec_wr_config_eq (r : ConfigReg) (v : Word) (s : State) :
    exec (.wr r.offset v) s = .next
      (if s.running = true then s.setErr .cfgLocked else (s.setConfig r v).setErr .ok) := by
  show execWr r.offset v s = _
  rw [execWr_aligned v s r.aligned_offset, r.target_offset]
  exact cfgWrite_eq r v s

/-- Settles O33: the one rule of `exec_wr_config_eq` at the four registers. -/
theorem configurationWriteAndLock : Obligations.ConfigurationWriteAndLock := by
  unfold Obligations.ConfigurationWriteAndLock
  intro s v
  exact ⟨exec_wr_config_eq .sampleRate v s, exec_wr_config_eq .freqLo v s,
    exec_wr_config_eq .freqHi v s, exec_wr_config_eq .fpb v s⟩

/-- Settles O35: the offsets named are `writableOffsets`. -/
theorem otherWritesAreIgnored : Obligations.OtherWritesAreIgnored := by
  unfold Obligations.OtherWritesAreIgnored
  exact fun s off v ha hoff => execWr_ignored v s ha hoff

/-! ## Completion (R148) -/

theorem execBuild_completes (s : State) : ∃ t, execBuild s = .next t := by
  obtain ⟨c, h⟩ | ⟨-, L, -, -, -, h⟩ := execBuild_cases s
  · exact ⟨_, h⟩
  · exact ⟨_, h⟩

theorem cmdWrite_completes (w : Word) (s : State) : ∃ t, cmdWrite w s = .next t := by
  obtain ⟨rsv, op, h⟩ | h | ⟨-, h⟩ | ⟨-, h⟩ | ⟨-, h⟩ := cmdWrite_cases w s
  · exact ⟨_, h⟩
  · exact ⟨_, h⟩
  · rw [h]
    exact execBuild_completes s
  · exact ⟨_, h.trans (execStart_eq s)⟩
  · exact ⟨_, h⟩

theorem writeTarget_completes (x : Target) (v : Word) (s : State) : ∃ t, writeTarget x v s = .next t := by
  cases x with
  | cmd => exact cmdWrite_completes v s
  | config r => exact ⟨_, cfgWrite_eq r v s⟩
  | _ => exact ⟨_, rfl⟩

/-- Settles O37: an aligned access reads or writes its target, which completes. -/
theorem hostAccessesComplete : Obligations.HostAccessesComplete := by
  unfold Obligations.HostAccessesComplete
  intro s off v ha
  refine ⟨⟨_, execRd_aligned s ha⟩, ?_⟩
  show ∃ t, execWr off v s = .next t
  rw [execWr_aligned v s ha]
  exact writeTarget_completes (target off) v s

end Sys2Proof.Machine
end

section
/-! PROOFS. Errors (60_exceptions.md): a failed command or host write changes only ERR (R160), and an access of
another size or alignment is the fault AccessError (R168). -/

namespace Sys2Proof.Machine

/-! ## Failed operations (R160) -/

/-- An operation on `s` that completes with ERR not 0 has changed at most ERR. -/
def Result.ChangesOnlyErrOnFailure (r : Result) (s : State) : Prop :=
  ∀ t, r = .next t → t.err ≠ 0#4 → t = { s with err := t.err }

theorem changesOnlyErrOnFailure_setErr (s : State) (c : ErrCode) :
    Result.ChangesOnlyErrOnFailure (.next (s.setErr c)) s := by
  rintro t ⟨⟩ -
  rfl

/-- OK is code 0, so an operation that reports it has not failed, whatever else it writes. -/
theorem changesOnlyErrOnFailure_ok (s u : State) :
    Result.ChangesOnlyErrOnFailure (.next (u.setErr .ok)) s := by
  rintro t ⟨⟩ hfailed
  exact absurd rfl hfailed

theorem execBuild_changesOnlyErrOnFailure (s : State) :
    Result.ChangesOnlyErrOnFailure (execBuild s) s := by
  obtain ⟨c, h⟩ | ⟨-, L, -, -, -, h⟩ := execBuild_cases s <;> rw [h]
  · exact changesOnlyErrOnFailure_setErr s c
  · exact changesOnlyErrOnFailure_ok s _

theorem execStart_changesOnlyErrOnFailure (s : State) :
    Result.ChangesOnlyErrOnFailure (execStart s) s := by
  obtain ⟨c, h⟩ | ⟨-, -, -, h⟩ := execStart_cases s <;> rw [h]
  · exact changesOnlyErrOnFailure_setErr s c
  · exact changesOnlyErrOnFailure_ok s _

theorem execWr_changesOnlyErrOnFailure (off : Offset) (v : Word) (s : State) :
    Result.ChangesOnlyErrOnFailure (execWr off v s) s := by
  obtain h | h | ⟨c, h⟩ | ⟨r, -, h⟩ | ⟨-, -, -, L, -, -, -, h⟩ | ⟨-, -, -, -, -, h⟩ | ⟨-, -, h⟩ :=
    execWr_cases off v s <;> rw [h]
  · exact nofun
  · rintro t ⟨⟩ -
    rfl
  · exact changesOnlyErrOnFailure_setErr s c
  · exact changesOnlyErrOnFailure_ok s _
  · exact changesOnlyErrOnFailure_ok s _
  · exact changesOnlyErrOnFailure_ok s _
  · exact changesOnlyErrOnFailure_ok s _

/-- Settles O48: each operation either writes ERR at most or reports OK. -/
theorem failedOperationsChangeOnlyErr : Obligations.FailedOperationsChangeOnlyErr := by
  unfold Obligations.FailedOperationsChangeOnlyErr
  rintro i s t (rfl | rfl | rfl | rfl | ⟨rsv, op, rfl⟩ | ⟨off, v, rfl⟩)
  · exact changesOnlyErrOnFailure_ok s s t
  · exact execBuild_changesOnlyErrOnFailure s t
  · exact execStart_changesOnlyErrOnFailure s t
  · exact changesOnlyErrOnFailure_ok s (s.setRunning false) t
  · exact changesOnlyErrOnFailure_setErr s .illegalCommand t
  · exact execWr_changesOnlyErrOnFailure off v s t

/-! ## Access errors (R168) -/

theorem exec_wr_misaligned {off : Offset} (v : Word) (s : State) (h : Offset.aligned off = false) :
    exec (.wr off v) s = .fault (.accessError off) := by
  show execWr off v s = _
  simp [execWr, accessLegal_four, h, raiseAccessError]

/-- An illegal access of either direction decodes to ACCESS_ERROR. -/
theorem exec_decodeAccess_illegal (dir : Direction) {z : AccessSize} {off : Offset} (v : Word) (s : State)
    (h : accessLegal z off = false) : exec (decodeAccess dir z off v) s = .fault (.accessError off) := by
  cases dir <;> simp only [decodeAccess, h] <;> rfl

theorem AccessSize.exists_ofCode {c : BitVec 3} (h : c.toNat < 4) : ∃ z, AccessSize.ofCode c = some z := by
  rw [← Option.ne_none_iff_exists', ne_eq, AccessSize.ofCode_eq_none_iff]
  omega

/-- An access whose size code is not 2 or whose OFFSET[1:0] is not 0 is illegal. -/
theorem accessLegal_eq_false {z : AccessSize} {off : Offset}
    (h : z.code ≠ 2#3 ∨ off.extractLsb' 0 2 ≠ 0#2) : accessLegal z off = false := by
  rw [← Bool.not_eq_true]
  intro hlegal
  obtain ⟨rfl, haligned⟩ := accessLegal_eq_true hlegal
  exact h.elim (fun hsize => hsize rfl) (fun hoff => hoff (beq_iff_eq.1 haligned))

/-- OFFSET[1:0] of a BUS word. -/
theorem offset_low_bits (w : DWord) : (w.extractLsb' 32 19).extractLsb' 0 2 = w.extractLsb' 32 2 := by
  refine BitVec.eq_of_getLsbD_eq fun i hi => ?_
  have hoffset : i < 19 := by omega
  simp [hi, hoffset]

/-- Settles O36: an illegal access decodes to ACCESS_ERROR, and RD and WR check the alignment themselves. -/
theorem accessErrorsStop : Obligations.AccessErrorsStop := by
  unfold Obligations.AccessErrorsStop
  refine ⟨fun _ _ _ _ _ => rfl,
    fun off v s h => ⟨exec_rd_misaligned s h, exec_wr_misaligned v s h⟩, ?_⟩
  intro s w rest hpending hrsvb hcode hillegal
  obtain ⟨z, hz⟩ := AccessSize.exists_ofCode hcode
  rw [← AccessSize.code_of_ofCode hz, ← offset_low_bits] at hillegal
  have hdecode : decode (.bus w) = .ok (decodeAccess (if w.getLsbD 63 then .write else .read) z
      (w.extractLsb' 32 19) (w.extractLsb' 0 32)) := by
    rw [decode, ← decodeBus_busWord, busWord_fields hrsvb hz]
  rw [step_host hpending, hdecode]
  exact exec_decodeAccess_illegal _ _ _ (accessLegal_eq_false hillegal)

end Sys2Proof.Machine
end

section
/-! PROOFS. After a reset no buffer is admitted (70_reset_and_hazards.md R180, 41_modulation_engine.md R124). -/

namespace Sys2Proof.Machine

/-- A stopped block refuses every BUFFER, one of no frames included (41_modulation_engine.md R124). -/
theorem exec_buffer_of_stopped {s : State} (hstopped : s.running = false) (fs : List Frame) :
    exec (.buffer fs) s = .refused .bufferNotAdmitted :=
  execBuffer_refused (State.admits_of_stopped hstopped fs.length)

/-- Settles O2: the reset step clears RUNNING (R46), and a stopped block admits no buffer. That no step is
shown as a refusal is log entry 4. -/
theorem noBufferAfterReset : Obligations.NoBufferAfterReset := by
  unfold Obligations.NoBufferAfterReset
  intro s rest hpending
  have hstopped : (s.setPending rest).performReset.running = false := State.performReset_running _
  exact ⟨_, step_reset hpending, exec_buffer_of_stopped hstopped⟩

end Sys2Proof.Machine
end

section
/-! PROOFS. A unit of each row of the opcode table (30_encoding.md R82 to R85). -/

namespace Sys2Proof

/-- The unit that encodes a well-formed instruction decodes to it. -/
theorem decode_of_encode_eq {i : Instr} {u : Encoded} (hwf : i.wf = true) (h : encode i = u) :
    decode u = .ok i :=
  h ▸ decodeEncodeRoundTrip i hwf

/-- Settles O10: each unit that decodes is the encoding of a well-formed instruction, so the round trip reads
the instruction back; the word with SIZE 4 is one of those that spell no access. -/
theorem familyWordsDecode : Obligations.FamilyWordsDecode := by
  unfold Obligations.FamilyWordsDecode
  have hsize : 4 ≤ ((0x0020000400000000#64).extractLsb' 51 3).toNat := by decide
  refine ⟨?nop, ?build, ?start, ?stop, ?illegalCmd, ?rd, ?wr, ?accessError,
    (decodeBus_eq_error_iff _).2 (.inr hsize), ?frame, ?buffer⟩
  all_goals exact decode_of_encode_eq (by decide) (by decide)

end Sys2Proof
end
